-- ==== Sys2Proof/Config.lean ====
section
/-!
DEFINITION. The implementation parameters of 00_scope.md R6 with this hardware's values, and the one free value of the model
(the random draw of CXNN). Each operation that depends on a behavioural parameter takes it as an argument, and the meanings
supply the value named here, so that a claim can also be stated for the other value. The widths that stand in types, and the
bounds, are tagged simp: a simp turns each into its number.
-/

namespace Sys2Proof.Config

/-- `MEM_SIZE`: 4096 addressable bytes. -/
@[simp] abbrev memSize : Nat := 4096

/-- `PROG_BASE`: the fixed entry point 0x200. -/
@[simp] abbrev progBase : Nat := 0x200

/-- `PROG_MAX`: the longest program image, 4096 - 0x200 bytes. -/
@[simp] abbrev progMax : Nat := memSize - progBase

/-- `STACK_DEPTH`: 12 entries (90_conflicts.md C1, 92_eei_decisions.md D1). -/
abbrev stackDepth : Nat := 12

/-- `NREGS`: the general registers. -/
@[simp] abbrev nRegs : Nat := 16

/-- `REG_WIDTH`: the bits of a general register. -/
@[simp] abbrev regWidth : Nat := 8

/-- `I_WIDTH`: the bits of the index register. -/
@[simp] abbrev iWidth : Nat := 16

/-- `PC_WIDTH`: the bits of the program counter. -/
@[simp] abbrev pcWidth : Nat := 16

/-- `NKEYS`: the keys of the keypad. -/
@[simp] abbrev nKeys : Nat := 16

/-- `TIMER_WIDTH`: the bits of each of the two timers. -/
@[simp] abbrev timerWidth : Nat := 8

/-- `FB_W`: framebuffer columns. -/
abbrev fbW : Nat := 64

/-- `FB_H`: framebuffer rows. -/
abbrev fbH : Nat := 32

/-- `UC_WIDTH`: the width of the unrecognized-opcode counter (92_eei_decisions.md D9). -/
abbrev ucWidth : Nat := 32

/-- `TICK_RATE`: ticks a second, supplied by the host (92_eei_decisions.md D25). The model has no time; nothing reads it. -/
abbrev tickRateHz : Nat := 60

/-- `FONT_BASE`: the address of the glyph of digit 0. -/
@[simp] abbrev fontBase : Nat := 0x000

/-- `FONT_LEN`: the bytes of the font table, 16 glyphs of 5. -/
@[simp] abbrev fontLen : Nat := 80

/-- Bytes of one glyph (20_memory.md R35: glyph d stands at 5*d). -/
abbrev glyphLen : Nat := 5

/-- `FONT`, glyphs 0 to 7 (20_memory.md R38; 93_implementation_defined.md U1). -/
def fontLow : List (BitVec 8) :=
  [0xF0, 0x90, 0x90, 0x90, 0xF0] ++ [0x20, 0x60, 0x20, 0x20, 0x70] ++
  [0xF0, 0x10, 0xF0, 0x80, 0xF0] ++ [0xF0, 0x10, 0xF0, 0x10, 0xF0] ++
  [0x90, 0x90, 0xF0, 0x10, 0x10] ++ [0xF0, 0x80, 0xF0, 0x10, 0xF0] ++
  [0xF0, 0x80, 0xF0, 0x90, 0xF0] ++ [0xF0, 0x10, 0x20, 0x40, 0x40]

/-- `FONT`, glyphs 8 to F. -/
def fontHigh : List (BitVec 8) :=
  [0xF0, 0x90, 0xF0, 0x90, 0xF0] ++ [0xF0, 0x90, 0xF0, 0x10, 0xF0] ++
  [0xF0, 0x90, 0xF0, 0x90, 0x90] ++ [0xE0, 0x90, 0xE0, 0x90, 0xE0] ++
  [0xF0, 0x80, 0x80, 0x80, 0xF0] ++ [0xE0, 0x90, 0x90, 0x90, 0xE0] ++
  [0xF0, 0x80, 0xF0, 0x80, 0xF0] ++ [0xF0, 0x80, 0xF0, 0x80, 0x80]

/-- `FONT`: the 80 font bytes, 16 glyphs of 5 bytes (20_memory.md R38). -/
def font : List (BitVec 8) := fontLow ++ fontHigh

/-- The two readings of the shifts' source register (92_eei_decisions.md D12). -/
inductive ShiftSource where
  | srcX
  | srcY
  deriving DecidableEq, Repr

/-- `SHIFT_SOURCE`: 8XY6 and 8XYE shift V[X] (92_eei_decisions.md D12). -/
def shiftSource : ShiftSource := .srcX

/-- `FLAG_LAST`: the flag is written after the result (92_eei_decisions.md D13). -/
def flagLast : Bool := true

/-- `STRICT_LOW_NIBBLE`: 5XYN and 9XYN are skips only when N = 0 (92_eei_decisions.md D10). -/
def strictLowNibble : Bool := true

/-- `FONT_ADDR_HIGH`: the address FX29 gives for a value above 0x0F, 5 * v (92_eei_decisions.md D16). -/
def fontAddrHigh (v : BitVec regWidth) : BitVec iWidth := 5 * v.setWidth iWidth

/-- `RAND`: the n-th draw of the run, a free byte (43_alu.md R100; 92_eei_decisions.md D27). It has no body: no proof can
see its value. -/
opaque rand : Nat → BitVec regWidth

end Sys2Proof.Config
end

