-- ==== Sys2Proof/Word.lean ====
section
/-!
DEFINITION. The word types of the core (00_scope.md R7, R11; 10_state.md R14, R17): bytes, 16-bit words, register and key
numbers. Every number is unsigned and bit 0 is the least significant bit.
-/

namespace Sys2Proof

/-- One 8-bit byte: a general register, a timer, a memory cell (10_state.md R14, R20, R30). -/
abbrev Byte := BitVec 8

/-- One 16-bit word: an opcode, I, PC, a stack entry (10_state.md R16, R17, R18, R28). -/
abbrev Word := BitVec 16

/-- The number of a general register, V0 to VF (10_state.md R14). -/
abbrev Reg := Fin Config.nRegs

/-- The number of a key, 0 to 15 (10_state.md R23). -/
abbrev Key := Fin Config.nKeys

/-- VF, the general register that is also the flag (10_state.md R15). -/
abbrev vF : Reg := 15

/-- `zext_16(NNN)` (30_encoding.md R55). -/
def zext16 (nnn : BitVec 12) : Word := nnn.setWidth 16

end Sys2Proof
end

