-- ==== Sys2Proof/Syntax.lean ====
section
/-!
DEFINITION. The 35 instructions of 30_encoding.md R66, one constructor per row of spec/opcode_table.json, in the table's order.
-/

namespace Sys2Proof

/-- An instruction: X and Y are register numbers, NN an 8-bit and NNN a 12-bit constant, N a 4-bit count (30_encoding.md R54). -/
inductive Instr where
  /-- 0NNN, `SYS NNN` (R77) -/
  | sys (nnn : BitVec 12)
  /-- 00E0, `CLS` (R107) -/
  | cls
  /-- 00EE, `RET` (R80) -/
  | ret
  /-- 1NNN, `JP NNN` (R78) -/
  | jp (nnn : BitVec 12)
  /-- 2NNN, `CALL NNN` (R79) -/
  | call (nnn : BitVec 12)
  /-- 3XNN, `SE Vx, NN` (R84) -/
  | seImm (x : Reg) (nn : Byte)
  /-- 4XNN, `SNE Vx, NN` (R85) -/
  | sneImm (x : Reg) (nn : Byte)
  /-- 5XY0, `SE Vx, Vy` (R86) -/
  | seReg (x y : Reg)
  /-- 6XNN, `LD Vx, NN` (R89) -/
  | ldImm (x : Reg) (nn : Byte)
  /-- 7XNN, `ADD Vx, NN` (R90) -/
  | addImm (x : Reg) (nn : Byte)
  /-- 8XY0, `LD Vx, Vy` (R91) -/
  | ldReg (x y : Reg)
  /-- 8XY1, `OR Vx, Vy` (R92) -/
  | orReg (x y : Reg)
  /-- 8XY2, `AND Vx, Vy` (R93) -/
  | andReg (x y : Reg)
  /-- 8XY3, `XOR Vx, Vy` (R94) -/
  | xorReg (x y : Reg)
  /-- 8XY4, `ADD Vx, Vy` (R95) -/
  | addReg (x y : Reg)
  /-- 8XY5, `SUB Vx, Vy` (R96) -/
  | subReg (x y : Reg)
  /-- 8XY6, `SHR Vx {, Vy}` (R97) -/
  | shr (x y : Reg)
  /-- 8XY7, `SUBN Vx, Vy` (R98) -/
  | subnReg (x y : Reg)
  /-- 8XYE, `SHL Vx {, Vy}` (R99) -/
  | shl (x y : Reg)
  /-- 9XY0, `SNE Vx, Vy` (R87) -/
  | sneReg (x y : Reg)
  /-- ANNN, `LD I, NNN` (R101) -/
  | ldI (nnn : BitVec 12)
  /-- BNNN, `JP V0, NNN` (R81) -/
  | jpV0 (nnn : BitVec 12)
  /-- CXNN, `RND Vx, NN` (R100) -/
  | rnd (x : Reg) (nn : Byte)
  /-- DXYN, `DRW Vx, Vy, N` (R108) -/
  | drw (x y : Reg) (n : BitVec 4)
  /-- EX9E, `SKP Vx` (R110) -/
  | skp (x : Reg)
  /-- EXA1, `SKNP Vx` (R111) -/
  | sknp (x : Reg)
  /-- FX07, `LD Vx, DT` (R114) -/
  | ldVxDt (x : Reg)
  /-- FX0A, `LD Vx, K` (R112) -/
  | ldVxK (x : Reg)
  /-- FX15, `LD DT, Vx` (R115) -/
  | ldDtVx (x : Reg)
  /-- FX18, `LD ST, Vx` (R116) -/
  | ldStVx (x : Reg)
  /-- FX1E, `ADD I, Vx` (R102) -/
  | addI (x : Reg)
  /-- FX29, `LD F, Vx` (R103) -/
  | ldF (x : Reg)
  /-- FX33, `LD B, Vx` (R104) -/
  | ldB (x : Reg)
  /-- FX55, `LD [I], Vx` (R105) -/
  | ldMemVx (x : Reg)
  /-- FX65, `LD Vx, [I]` (R106) -/
  | ldVxMem (x : Reg)
  deriving DecidableEq, Repr

end Sys2Proof
end

