-- ==== Sys2Proof/WellFormed.lean ====
section
/-!
DEFINITION. When an instruction has a word of its own. Every field of `Instr` has exactly the width the encoding gives it, so
one check is left: SYS takes every word with T = 0 other than 00E0 and 00EE, which are CLS and RET (30_encoding.md R59).
-/

namespace Sys2Proof

/-- The instruction can be written as a word: `SYS 0E0` and `SYS 0EE` cannot. -/
def Instr.wf : Instr → Bool
  | .sys nnn => nnn != 0x0E0 && nnn != 0x0EE
  | .cls | .ret | .jp _ | .call _ | .seImm _ _ | .sneImm _ _ | .seReg _ _ | .ldImm _ _ | .addImm _ _ | .ldReg _ _
  | .orReg _ _ | .andReg _ _ | .xorReg _ _ | .addReg _ _ | .subReg _ _ | .shr _ _ | .subnReg _ _ | .shl _ _ | .sneReg _ _
  | .ldI _ | .jpV0 _ | .rnd _ _ | .drw _ _ _ | .skp _ | .sknp _ | .ldVxDt _ | .ldVxK _ | .ldDtVx _ | .ldStVx _ | .addI _
  | .ldF _ | .ldB _ | .ldMemVx _ | .ldVxMem _ => true

end Sys2Proof
end

