-- ==== Sys2Proof/Decode.lean ====
section
/-!
DEFINITION. The decoder (30_encoding.md R53 to R65), total on any bytes and rejecting by name, and after it the encoder written
from the same map (R66). An opcode is two bytes, the high byte at the lower address (20_memory.md R39).
-/

namespace Sys2Proof

/-- The overlapping fields of an opcode (00_scope.md R9; 30_encoding.md R54), all extracted at once (R57). -/
structure Fields where
  t : BitVec 4
  x : Reg
  y : Reg
  n : BitVec 4
  nn : Byte
  nnn : BitVec 12
  deriving DecidableEq, Repr

/-- T = op[15:12], X = op[11:8], Y = op[7:4], N = op[3:0], NN = op[7:0], NNN = op[11:0]. -/
def fieldsOf (op : Word) : Fields where
  t := op.extractLsb' 12 4
  x := (op.extractLsb' 8 4).toFin
  y := (op.extractLsb' 4 4).toFin
  n := op.extractLsb' 0 4
  nn := op.extractLsb' 0 8
  nnn := op.extractLsb' 0 12

/-- Why the decoder selects no instruction. All but `truncated` are the unrecognized words of 30_encoding.md R64 and R65, by
family; the step executes them as a counted no-op. `truncated`: fewer than two bytes were given. -/
inductive Reject where
  | truncated
  | skipNibble5
  | aluNibble8
  | skipNibble9
  | keyByteE
  | miscByteF
  deriving DecidableEq, Repr

/-- Family 0x0 (30_encoding.md R59): CLS, RET, and SYS for every other word. -/
def decode0 (f : Fields) : Instr :=
  if f.nnn = 0x0E0 then .cls
  else if f.nnn = 0x0EE then .ret
  else .sys f.nnn

/-- Family 0x5 (30_encoding.md R60), with `strict` for `STRICT_LOW_NIBBLE`. -/
def decode5 (strict : Bool) (f : Fields) : Except Reject Instr :=
  if strict ∧ f.n ≠ 0x0 then .error .skipNibble5 else .ok (.seReg f.x f.y)

/-- Family 0x9 (30_encoding.md R60), with `strict` for `STRICT_LOW_NIBBLE`. -/
def decode9 (strict : Bool) (f : Fields) : Except Reject Instr :=
  if strict ∧ f.n ≠ 0x0 then .error .skipNibble9 else .ok (.sneReg f.x f.y)

/-- Family 0x8, selected by N (30_encoding.md R61). -/
def decode8 (f : Fields) : Except Reject Instr :=
  if f.n = 0x0 then .ok (.ldReg f.x f.y)
  else if f.n = 0x1 then .ok (.orReg f.x f.y)
  else if f.n = 0x2 then .ok (.andReg f.x f.y)
  else if f.n = 0x3 then .ok (.xorReg f.x f.y)
  else if f.n = 0x4 then .ok (.addReg f.x f.y)
  else if f.n = 0x5 then .ok (.subReg f.x f.y)
  else if f.n = 0x6 then .ok (.shr f.x f.y)
  else if f.n = 0x7 then .ok (.subnReg f.x f.y)
  else if f.n = 0xE then .ok (.shl f.x f.y)
  else .error .aluNibble8

/-- Family 0xE, selected by NN (30_encoding.md R62). -/
def decodeE (f : Fields) : Except Reject Instr :=
  if f.nn = 0x9E then .ok (.skp f.x)
  else if f.nn = 0xA1 then .ok (.sknp f.x)
  else .error .keyByteE

/-- Family 0xF, selected by NN (30_encoding.md R63). -/
def decodeF (f : Fields) : Except Reject Instr :=
  if f.nn = 0x07 then .ok (.ldVxDt f.x)
  else if f.nn = 0x0A then .ok (.ldVxK f.x)
  else if f.nn = 0x15 then .ok (.ldDtVx f.x)
  else if f.nn = 0x18 then .ok (.ldStVx f.x)
  else if f.nn = 0x1E then .ok (.addI f.x)
  else if f.nn = 0x29 then .ok (.ldF f.x)
  else if f.nn = 0x33 then .ok (.ldB f.x)
  else if f.nn = 0x55 then .ok (.ldMemVx f.x)
  else if f.nn = 0x65 then .ok (.ldVxMem f.x)
  else .error .miscByteF

/-- The dispatch on the top nibble (30_encoding.md R58). -/
def decodeFields (strict : Bool) (f : Fields) : Except Reject Instr :=
  if f.t = 0x0 then .ok (decode0 f)
  else if f.t = 0x1 then .ok (.jp f.nnn)
  else if f.t = 0x2 then .ok (.call f.nnn)
  else if f.t = 0x3 then .ok (.seImm f.x f.nn)
  else if f.t = 0x4 then .ok (.sneImm f.x f.nn)
  else if f.t = 0x5 then decode5 strict f
  else if f.t = 0x6 then .ok (.ldImm f.x f.nn)
  else if f.t = 0x7 then .ok (.addImm f.x f.nn)
  else if f.t = 0x8 then decode8 f
  else if f.t = 0x9 then decode9 strict f
  else if f.t = 0xA then .ok (.ldI f.nnn)
  else if f.t = 0xB then .ok (.jpV0 f.nnn)
  else if f.t = 0xC then .ok (.rnd f.x f.nn)
  else if f.t = 0xD then .ok (.drw f.x f.y f.n)
  else if f.t = 0xE then decodeE f
  else decodeF f

/-- The decoder on one opcode, for either value of `STRICT_LOW_NIBBLE`. -/
def decodeWith (strict : Bool) (op : Word) : Except Reject Instr := decodeFields strict (fieldsOf op)

/-- The decoder of this hardware on one opcode (40_step.md R72). -/
def decodeWord (op : Word) : Except Reject Instr := decodeWith Config.strictLowNibble op

/-- Two bytes combined big-endian (20_memory.md R39): `hi8 ++ lo8`. -/
def wordOfBytes (hi lo : Byte) : Word := hi ++ lo

/-- The high byte of an opcode, stored at the lower address. -/
def highByte (op : Word) : Byte := op.extractLsb' 8 8

/-- The low byte of an opcode, stored at the higher address. -/
def lowByte (op : Word) : Byte := op.extractLsb' 0 8

/-- The decoder on any bytes: the instruction of the first two and the bytes after them. -/
def decode : List Byte → Except Reject (Instr × List Byte)
  | hi :: lo :: rest =>
    match decodeWord (wordOfBytes hi lo) with
    | .ok i => .ok (i, rest)
    | .error r => .error r
  | _ :: [] => .error .truncated
  | [] => .error .truncated

/-- Format T X NN. -/
def wordXNN (t : BitVec 4) (x : Reg) (nn : Byte) : Word := t ++ BitVec.ofFin (w := 4) x ++ nn

/-- Format T X Y N. -/
def wordXYN (t : BitVec 4) (x y : Reg) (n : BitVec 4) : Word :=
  t ++ BitVec.ofFin (w := 4) x ++ BitVec.ofFin (w := 4) y ++ n

/-- Format T NNN. -/
def wordNNN (t : BitVec 4) (nnn : BitVec 12) : Word := t ++ nnn

/-- The word of an instruction (30_encoding.md R66). -/
def encode : Instr → Word
  | .sys nnn => wordNNN 0x0 nnn
  | .cls => 0x00E0
  | .ret => 0x00EE
  | .jp nnn => wordNNN 0x1 nnn
  | .call nnn => wordNNN 0x2 nnn
  | .seImm x nn => wordXNN 0x3 x nn
  | .sneImm x nn => wordXNN 0x4 x nn
  | .seReg x y => wordXYN 0x5 x y 0x0
  | .ldImm x nn => wordXNN 0x6 x nn
  | .addImm x nn => wordXNN 0x7 x nn
  | .ldReg x y => wordXYN 0x8 x y 0x0
  | .orReg x y => wordXYN 0x8 x y 0x1
  | .andReg x y => wordXYN 0x8 x y 0x2
  | .xorReg x y => wordXYN 0x8 x y 0x3
  | .addReg x y => wordXYN 0x8 x y 0x4
  | .subReg x y => wordXYN 0x8 x y 0x5
  | .shr x y => wordXYN 0x8 x y 0x6
  | .subnReg x y => wordXYN 0x8 x y 0x7
  | .shl x y => wordXYN 0x8 x y 0xE
  | .sneReg x y => wordXYN 0x9 x y 0x0
  | .ldI nnn => wordNNN 0xA nnn
  | .jpV0 nnn => wordNNN 0xB nnn
  | .rnd x nn => wordXNN 0xC x nn
  | .drw x y n => wordXYN 0xD x y n
  | .skp x => wordXNN 0xE x 0x9E
  | .sknp x => wordXNN 0xE x 0xA1
  | .ldVxDt x => wordXNN 0xF x 0x07
  | .ldVxK x => wordXNN 0xF x 0x0A
  | .ldDtVx x => wordXNN 0xF x 0x15
  | .ldStVx x => wordXNN 0xF x 0x18
  | .addI x => wordXNN 0xF x 0x1E
  | .ldF x => wordXNN 0xF x 0x29
  | .ldB x => wordXNN 0xF x 0x33
  | .ldMemVx x => wordXNN 0xF x 0x55
  | .ldVxMem x => wordXNN 0xF x 0x65

/-- The two bytes of an instruction in memory order. -/
def encodeBytes (i : Instr) : List Byte := [highByte (encode i), lowByte (encode i)]

/-- The instruction whose `nbits` low bits are `w`, numbered as spec/opcode_table.json numbers them. Every instruction is one
16-bit word (30_encoding.md R53), laid out high byte first and given to `decode`. -/
def decodeTableWord (nbits w : Nat) : Option Instr :=
  let op : Word := BitVec.ofNat 16 (w % 2 ^ nbits)
  match decode [highByte op, lowByte op] with
  | .ok (i, _) => some i
  | .error _ => none

end Sys2Proof
end

