-- ==== Sys2Proof/Machine/State.lean ====
section
/-!
DEFINITION. The state of the core, exactly the elements of 10_state.md R13, and the model's own draw counter; the reasons an
operation can stop; the state after reset (10_state.md R32).
-/

namespace Sys2Proof.Machine

/-- The run-state RS (10_state.md R26). -/
inductive RunState where
  | running
  | paused
  | halted
  deriving DecidableEq, Repr

/-- The halt reason HR (10_state.md R27; 60_exceptions.md R117). -/
inductive HaltReason where
  | none
  | stackOverflow
  | stackUnderflow
  | fetchOutOfRange
  | memoryOutOfRange
  | keyIndexOutOfRange
  | hostHalt
  deriving DecidableEq, Repr

/-- Memory M: the cells whose byte differs from the one an unlisted address reads as (20_memory.md R34), by rising address. -/
abbrev Memory := List Host.Cell

/-- The framebuffer FB[y][x] (10_state.md R22): rows from the top, columns from the left, true = on. -/
abbrev Framebuffer := Vector (Vector Bool Config.fbW) Config.fbH

/-- Everything the spec gives the core (10_state.md R13), one field per element, and `draws`. -/
structure State where
  /-- V0 to VF (R14); VF is also the flag (R15) -/
  v : Vector (BitVec Config.regWidth) Config.nRegs
  /-- the index register I (R16) -/
  i : BitVec Config.iWidth
  /-- the program counter (R17) -/
  pc : BitVec Config.pcWidth
  /-- the return addresses S[0..11] (R18) -/
  stack : Vector Word Config.stackDepth
  /-- SP, the number of entries in use, 0 to 12 (R19) -/
  sp : Fin (Config.stackDepth + 1)
  /-- the delay timer DT (R20) -/
  dt : BitVec Config.timerWidth
  /-- the sound timer ST (R21) -/
  st : BitVec Config.timerWidth
  /-- the framebuffer FB (R22) -/
  fb : Framebuffer
  /-- the keypad K, true = held (R23) -/
  keys : Vector Bool Config.nKeys
  /-- the awaited key AK (R24) -/
  ak : Option Key
  /-- DIRTY (R25) -/
  dirty : Bool
  /-- the run-state RS (R26) -/
  rs : RunState
  /-- the halt reason HR (R27) -/
  hr : HaltReason
  /-- the current instruction CI (R28) -/
  ci : Word
  /-- the unrecognized-opcode counter UC (R29) -/
  uc : BitVec Config.ucWidth
  /-- memory M[0..4095] (R30) -/
  mem : Memory
  /-- The MODEL's own field: how many random bytes have been drawn. The next CXNN draws `Config.rand draws` (log entry 2). -/
  draws : Nat
  deriving DecidableEq, Repr

/-- Why an operation stops the machine with a fault. NO STEP raises one: a fatal condition is a next state with RS = Halted
(60_exceptions.md R118). -/
inductive Fault where
  /-- Raised by the host's `load` alone, for an image longer than 3584 bytes: the core does not start
  (70_reset_and_hazards.md R137). Safe: the spec gives no state after it. -/
  | programTooLarge
  /-- Raised by the host's `load` alone, where no image was obtained: the core does not start (70_reset_and_hazards.md R138).
  Safe: the spec gives no state after it. -/
  | programUnreadable
  deriving DecidableEq, Repr

/-- Why an operation is refused. -/
inductive Refusal where
  /-- Raised by an arm of `exec` whose instruction has no meaning yet. No arm does. Safe. -/
  | notModelled (mnemonic : String)
  /-- Raised by `step` in Paused or Halted: the core gives the request no transition (40_step.md R69). Safe: no claim about a
  next state can be made of it. -/
  | stepNotRunning
  deriving DecidableEq, Repr

/-- What an operation answers. -/
abbrev Result := Host.Outcome State Fault Refusal

/-- The state after a successful load of the empty image (10_state.md R32; 70_reset_and_hazards.md R139): M holds the font and
zeros, which is what unlisted addresses read as, so nothing is listed. -/
def State.reset : State where
  v := Vector.replicate Config.nRegs 0
  i := 0
  pc := BitVec.ofNat Config.pcWidth Config.progBase
  stack := Vector.replicate Config.stackDepth 0
  sp := 0
  dt := 0
  st := 0
  fb := Vector.replicate Config.fbH (Vector.replicate Config.fbW false)
  keys := Vector.replicate Config.nKeys false
  ak := none
  dirty := false
  rs := .running
  hr := .none
  ci := 0
  uc := 0
  mem := []
  draws := 0

end Sys2Proof.Machine
end

