-- ==== Sys2Proof/Machine/Ops.lean ====
section
/-!
DEFINITION. The named operations over memory, registers and control state that the meanings share: byte access (20_memory.md
R43, R44), register access (00_scope.md R8), the fetch and advance of the step (40_step.md R70, R71), the skip (42_skip.md
R83), the unrecognized no-op (30_encoding.md R64), and fatal entry (60_exceptions.md R118).

Fatal entry is the core's only exception entry, and there is no return from it (60_exceptions.md R121), so no return operation
stands beside it.
-/

namespace Sys2Proof.Machine

/-! ## Memory -/

/-- What an address that memory does not list reads as: the contents initialisation gives it, the font byte below 0x050 and
0x00 elsewhere (10_state.md R32). -/
def Memory.unlisted (a : Nat) : Byte :=
  if Config.fontBase ≤ a ∧ a < Config.fontBase + Config.fontLen then Config.font.getD (a - Config.fontBase) 0x00 else 0x00

/-- `MemRead(a, 1)` (20_memory.md R43). Instructions read only addresses up to 0xFFF, after `InRange`. -/
def Memory.read : Memory → Nat → Byte
  | [], a => Memory.unlisted a
  | c :: m, a => if c.1 = a then c.2 else Memory.read m a

/-- `MemWrite(a, 1, b)` (20_memory.md R44), keeping the canonical form: a byte equal to what its address reads as unlisted is
not listed. -/
def Memory.write : Memory → Nat → Byte → Memory
  | [], a, b => if b = Memory.unlisted a then [] else [(a, b)]
  | c :: m, a, b =>
    if a < c.1 then (if b = Memory.unlisted a then c :: m else (a, b) :: c :: m)
    else if a = c.1 then (if b = Memory.unlisted a then m else (a, b) :: m)
    else c :: Memory.write m a b

/-- The bytes at `a`, `a+1`, ..., `n` of them in order. -/
def Memory.readBytes (m : Memory) (a : Nat) : Nat → List Byte
  | 0 => []
  | n + 1 => m.read a :: Memory.readBytes m (a + 1) n

/-- Store the bytes at `a`, `a+1`, ... in order. -/
def Memory.writeBytes (m : Memory) (a : Nat) : List Byte → Memory
  | [] => m
  | b :: bs => Memory.writeBytes (m.write a b) (a + 1) bs

/-- The canonical form: addresses strictly rising and inside the 4096 bytes, no cell equal to what its address reads as
unlisted. -/
abbrev Memory.wf (m : Memory) : Prop :=
  m.Pairwise (fun c d => c.1 < d.1) ∧ ∀ c ∈ m, c.1 < Config.memSize ∧ c.2 ≠ Memory.unlisted c.1

/-- The range check of 20_memory.md R45 for `n` bytes from `a`: no address to be accessed is above 0xFFF. Addresses are
unbounded naturals and do not wrap (R42). -/
abbrev InRange (a n : Nat) : Prop := n = 0 ∨ a + (n - 1) ≤ Config.memSize - 1

/-! ## Named reads and updates of the state -/

/-- `V[r]`. -/
def State.reg (s : State) (r : Reg) : Byte := s.v[r]

/-- `V[r] <- b`. -/
def State.setReg (s : State) (r : Reg) (b : Byte) : State := { s with v := s.v.set r b }

/-- `pc <- a`. -/
def State.setPc (s : State) (a : Word) : State := { s with pc := a }

/-- `I <- a`. -/
def State.setIndex (s : State) (a : Word) : State := { s with i := a }

/-- Memory after an instruction's stores. -/
def State.setMem (s : State) (m : Memory) : State := { s with mem := m }

/-- `DT <- b`. -/
def State.setDt (s : State) (b : Byte) : State := { s with dt := b }

/-- `ST <- b`. -/
def State.setSt (s : State) (b : Byte) : State := { s with st := b }

/-- `AK <- k`. -/
def State.setAwaited (s : State) (k : Option Key) : State := { s with ak := k }

/-- `FB <- f` and `DIRTY <- 1`: every write of the framebuffer also marks it dirty (10_state.md R25). -/
def State.setDisplay (s : State) (f : Framebuffer) : State := { s with fb := f, dirty := true }

/-! ## Fatal entry -/

/-- Fatal entry (60_exceptions.md R118), with `pc0` the address of the faulting instruction: PC, RS and HR are written and
nothing else. -/
def fatalEntry (pc0 : Word) (reason : HaltReason) (s : State) : State :=
  { s with pc := pc0, rs := .halted, hr := reason }

/-- `raise Fatal(reason)` inside an instruction: the step has advanced PC by 2 (40_step.md R71), so PC0 is PC - 2. -/
def raiseFatal (reason : HaltReason) (s : State) : Result := .next (fatalEntry (s.pc - 2) reason s)

/-! ## Fetch, advance, skip, no-op -/

/-- The fetch would leave memory: its second byte, at PC + 1, is above 0xFFF (40_step.md R70). -/
abbrev FetchOutOfRange (s : State) : Prop := s.pc.toNat > Config.memSize - 2

/-- The word at PC, big-endian (40_step.md R70; 20_memory.md R39). -/
def fetchWord (s : State) : Word := wordOfBytes (s.mem.read s.pc.toNat) (s.mem.read (s.pc.toNat + 1))

/-- `CI <- op` and `PC <- PC + 2` modulo 2^16 (40_step.md R70, R71). -/
def advance (op : Word) (s : State) : State := { s with ci := op, pc := s.pc + 2 }

/-- A fetch out of range: fatal before any other effect, PC and CI kept (40_step.md R70). -/
def fetchFault (s : State) : Result := .next (fatalEntry s.pc .fetchOutOfRange s)

/-- Skip the next instruction when the condition holds (42_skip.md R83). -/
def skipIf (c : Bool) (s : State) : State := if c then s.setPc (s.pc + 2) else s

/-- An unrecognized opcode: a no-op counted in UC modulo 2^32 (30_encoding.md R64). -/
def unrecognized (s : State) : Result := .next { s with uc := s.uc + 1 }

/-- `s` with the word `op` stored at PC, where the next step fetches. Where no word can be fetched it is `s`. -/
def placeWord (op : Word) (s : State) : State :=
  if FetchOutOfRange s then s else s.setMem (s.mem.writeBytes s.pc.toNat [highByte op, lowByte op])

end Sys2Proof.Machine
end

