-- ==== Sys2Proof/Machine/Flags.lean ====
section
/-!
DEFINITION. Results and flags of the register-register family (43_alu.md R88, R95 to R99). Each is computed from the operands'
pre-operation values, on natural numbers, and narrowed at the end.
-/

namespace Sys2Proof.Machine

/-- A flag as the byte VF holds: 0 or 1. -/
def flagByte (f : Bool) : Byte := if f then 1 else 0

/-- The result r and the flag f of a flag-setting instruction. -/
structure Flagged where
  r : Byte
  f : Bool
  deriving DecidableEq, Repr

/-- `a + b`, the flag its carry out (43_alu.md R95). -/
def addCarry (a b : Byte) : Flagged where
  r := BitVec.ofNat 8 (a.toNat + b.toNat)
  f := decide (a.toNat + b.toNat > 255)

/-- `a - b`, the flag set when no borrow occurred (43_alu.md R96; R98 with the operands swapped). -/
def subNoBorrow (a b : Byte) : Flagged where
  r := BitVec.ofNat 8 (a.toNat + 256 - b.toNat)
  f := decide (b.toNat ≤ a.toNat)

/-- `s` shifted right by one, the flag bit 0 of `s` (43_alu.md R97). -/
def shiftRight (s : Byte) : Flagged where
  r := BitVec.ofNat 8 (s.toNat / 2)
  f := s.getLsbD 0

/-- `s` shifted left by one, the flag bit 7 of `s` (43_alu.md R99). -/
def shiftLeft (s : Byte) : Flagged where
  r := BitVec.ofNat 8 (s.toNat * 2)
  f := s.getLsbD 7

/-- `WriteRF(X, r, f)` for either value of `FLAG_LAST` (43_alu.md R88). -/
def writeRF (flagLast : Bool) (x : Reg) (o : Flagged) (s : State) : State :=
  if flagLast then (s.setReg x o.r).setReg vF (flagByte o.f)
  else (s.setReg vF (flagByte o.f)).setReg x o.r

end Sys2Proof.Machine
end

