-- ==== Sys2Proof/Machine/Operands.lean ====
section
/-!
DEFINITION. The operand forms of 30_encoding.md R56 beyond a plain register or immediate: the shifts' source, the jump offset,
the glyph address, the decimal digits, the keypad operand and the registers V0..VX of FX55 and FX65.
-/

namespace Sys2Proof.Machine

/-- The operand of 8XY6 and 8XYE for either value of `SHIFT_SOURCE` (43_alu.md R97, R99). -/
def shiftOperand (src : Config.ShiftSource) (s : State) (x y : Reg) : Byte :=
  match src with
  | .srcX => s.reg x
  | .srcY => s.reg y

/-- The target of BNNN: `(NNN + V[0]) mod 2^16` (41_control.md R81). -/
def offsetTarget (s : State) (nnn : BitVec 12) : Word := zext16 nnn + (s.reg 0).setWidth 16

/-- `I + V[X]` modulo 2^16 (44_index_memory.md R102). -/
def indexSum (s : State) (x : Reg) : Word := s.i + (s.reg x).setWidth 16

/-- The address FX29 gives for the value `v`, with `high` for `FONT_ADDR_HIGH` (44_index_memory.md R103). -/
def glyphAddress (high : Byte → Word) (v : Byte) : Word :=
  if v ≤ 0x0F then BitVec.ofNat 16 (Config.fontBase + Config.glyphLen * v.toNat) else high v

/-- The hundreds, tens and ones of a byte (44_index_memory.md R104). -/
def decimalDigits (v : Byte) : List Byte :=
  [BitVec.ofNat 8 (v.toNat / 100), BitVec.ofNat 8 (v.toNat / 10 % 10), BitVec.ofNat 8 (v.toNat % 10)]

/-- How many bytes FX55 and FX65 move: V0 to VX inclusive (44_index_memory.md R105, R106). -/
def regCount (x : Reg) : Nat := x.val + 1

/-- The values of V0 to VX in order. -/
def regsUpTo (s : State) (x : Reg) : List Byte := s.v.toList.take (regCount x)

/-- V0 to VX replaced by the bytes at `base`, `base+1`, ...; the registers above VX as they were. -/
def loadRegs (s : State) (x : Reg) (base : Nat) : Vector Byte Config.nRegs :=
  Vector.ofFn fun r : Reg => if r ≤ x then s.mem.read (base + r.val) else s.reg r

/-- The key that V[X] names, none above 0x0F (46_keypad.md R110). -/
def keyOperand (s : State) (x : Reg) : Option Key :=
  if h : (s.reg x).toNat < Config.nKeys then some ⟨(s.reg x).toNat, h⟩ else none

/-- `K[k] = 1`. -/
def State.held (s : State) (k : Key) : Bool := s.keys[k]

/-- The least-numbered key held, if any is (46_keypad.md R112; 92_eei_decisions.md D18). -/
def leastHeld (s : State) : Option Key := (List.finRange Config.nKeys).find? fun k => s.held k

end Sys2Proof.Machine
end

