-- ==== Sys2Proof/Machine/Alu.lean ====
section
/-!
DEFINITION. Register loads and arithmetic (43_alu.md R88 to R100). None touches PC, and none raises an exception.
-/

namespace Sys2Proof.Machine

/-- LD Vx, NN (R89). -/
def execLdImm (x : Reg) (nn : Byte) (s : State) : Result := .next (s.setReg x nn)

/-- ADD Vx, NN (R90): VF is not written. -/
def execAddImm (x : Reg) (nn : Byte) (s : State) : Result := .next (s.setReg x (s.reg x + nn))

/-- LD Vx, Vy (R91). -/
def execLdReg (x y : Reg) (s : State) : Result := .next (s.setReg x (s.reg y))

/-- OR Vx, Vy (R92): VF is not reset. -/
def execOrReg (x y : Reg) (s : State) : Result := .next (s.setReg x (s.reg x ||| s.reg y))

/-- AND Vx, Vy (R93): VF is not reset. -/
def execAndReg (x y : Reg) (s : State) : Result := .next (s.setReg x (s.reg x &&& s.reg y))

/-- XOR Vx, Vy (R94): VF is not reset. -/
def execXorReg (x y : Reg) (s : State) : Result := .next (s.setReg x (s.reg x ^^^ s.reg y))

/-- ADD Vx, Vy (R95). -/
def execAddReg (x y : Reg) (s : State) : Result :=
  .next (writeRF Config.flagLast x (addCarry (s.reg x) (s.reg y)) s)

/-- SUB Vx, Vy (R96). -/
def execSubReg (x y : Reg) (s : State) : Result :=
  .next (writeRF Config.flagLast x (subNoBorrow (s.reg x) (s.reg y)) s)

/-- SHR Vx {, Vy} (R97). -/
def execShr (x y : Reg) (s : State) : Result :=
  .next (writeRF Config.flagLast x (shiftRight (shiftOperand Config.shiftSource s x y)) s)

/-- SUBN Vx, Vy (R98). -/
def execSubnReg (x y : Reg) (s : State) : Result :=
  .next (writeRF Config.flagLast x (subNoBorrow (s.reg y) (s.reg x)) s)

/-- SHL Vx {, Vy} (R99). -/
def execShl (x y : Reg) (s : State) : Result :=
  .next (writeRF Config.flagLast x (shiftLeft (shiftOperand Config.shiftSource s x y)) s)

/-- RND Vx, NN (R100): the draw is a free byte, and the next execution takes another (log entry 2). -/
def execRnd (x : Reg) (nn : Byte) (s : State) : Result :=
  .next { s.setReg x (Config.rand s.draws &&& nn) with draws := s.draws + 1 }

end Sys2Proof.Machine
end

