-- ==== Sys2Proof/Machine/Control.lean ====
section
/-!
DEFINITION. Control transfer (41_control.md R77 to R82). PC already holds PC0 + 2.
-/

namespace Sys2Proof.Machine

/-- SYS NNN: no effect beyond the step's advance (R77). -/
def execSys (_nnn : BitVec 12) (s : State) : Result := .next s

/-- JP NNN (R78). -/
def execJp (nnn : BitVec 12) (s : State) : Result := .next (s.setPc (zext16 nnn))

/-- CALL NNN (R79): with 12 entries in use, Fatal(StackOverflow). -/
def execCall (nnn : BitVec 12) (s : State) : Result :=
  if h : s.sp.val < Config.stackDepth then
    .next { s with
      stack := s.stack.set s.sp.val s.pc h
      sp := ⟨s.sp.val + 1, Nat.succ_lt_succ h⟩
      pc := zext16 nnn }
  else raiseFatal .stackOverflow s

/-- RET (R80): on an empty stack, Fatal(StackUnderflow). The popped entry keeps its value. -/
def execRet (s : State) : Result :=
  if h : s.sp.val = 0 then raiseFatal .stackUnderflow s
  else
    .next { s with
      sp := ⟨s.sp.val - 1, by omega⟩
      pc := s.stack[s.sp.val - 1]'(by omega) }

/-- JP V0, NNN (R81). -/
def execJpV0 (nnn : BitVec 12) (s : State) : Result := .next (s.setPc (offsetTarget s nnn))

end Sys2Proof.Machine
end

