-- ==== Sys2Proof/Machine/Display.lean ====
section
/-!
DEFINITION. The display (45_display.md R107, R108): clear screen, and the sprite draw with clipping and collision, pixel by
pixel in the rule's order.
-/

namespace Sys2Proof.Machine

/-- Every cell off. -/
def Framebuffer.clear : Framebuffer := Vector.replicate Config.fbH (Vector.replicate Config.fbW false)

/-- FB[y][x]; off outside the 64 x 32 cells. -/
def Framebuffer.pixel (f : Framebuffer) (x y : Nat) : Bool :=
  if h : y < Config.fbH ∧ x < Config.fbW then (f[y]'h.1)[x]'h.2 else false

/-- FB[y][x] <- FB[y][x] XOR 1; nothing outside the cells. -/
def Framebuffer.toggle (f : Framebuffer) (x y : Nat) : Framebuffer :=
  if h : y < Config.fbH ∧ x < Config.fbW then
    f.set y ((f[y]'h.1).set x (!(f[y]'h.1)[x]'h.2) h.2) h.1
  else f

/-- What a draw works on: the framebuffer and whether a set bit has fallen on a cell that was on. -/
structure Canvas where
  fb : Framebuffer
  hit : Bool
  deriving DecidableEq, Repr

/-- One sprite bit at (x, y): a set bit toggles the cell and collides where it was on; the collision is sticky. -/
def drawPixel (x y : Nat) (bit : Bool) (c : Canvas) : Canvas :=
  if bit then { fb := c.fb.toggle x y, hit := c.hit || c.fb.pixel x y } else c

/-- Columns `cols` of one sprite row at (x0, y): bit 7 is column x0, and the row stops at the right edge. -/
def drawCols (x0 y : Nat) (b : Byte) : List Nat → Canvas → Canvas
  | [], c => c
  | k :: ks, c => if x0 + k ≥ Config.fbW then c else drawCols x0 y b ks (drawPixel (x0 + k) y (b.getLsbD (7 - k)) c)

/-- One sprite row: its eight columns. -/
def drawRow (x0 y : Nat) (b : Byte) (c : Canvas) : Canvas := drawCols x0 y b [0, 1, 2, 3, 4, 5, 6, 7] c

/-- The sprite's rows from row y downwards. -/
def drawRows (x0 : Nat) : Nat → List Byte → Canvas → Canvas
  | _, [], c => c
  | y, b :: bs, c => drawRows x0 (y + 1) bs (drawRow x0 y b c)

/-- The column a sprite starts in: V[X] mod 64. -/
def spriteX (s : State) (x : Reg) : Nat := (s.reg x).toNat % Config.fbW

/-- The row a sprite starts in: V[Y] mod 32. -/
def spriteY (s : State) (y : Reg) : Nat := (s.reg y).toNat % Config.fbH

/-- The rows drawn: those past the bottom edge are neither drawn nor read. -/
def spriteRows (s : State) (y : Reg) (n : BitVec 4) : Nat := min n.toNat (Config.fbH - spriteY s y)

/-- The framebuffer and the collision of a draw. -/
def drawSprite (s : State) (x y : Reg) (n : BitVec 4) : Canvas :=
  drawRows (spriteX s x) (spriteY s y) (s.mem.readBytes s.i.toNat (spriteRows s y n)) { fb := s.fb, hit := false }

/-- CLS (R107): DIRTY is set even when the framebuffer was clear. -/
def execCls (s : State) : Result := .next (s.setDisplay Framebuffer.clear)

/-- DRW Vx, Vy, N (R108): the coordinates are the registers' values before VF is written, VF the collision. -/
def execDrw (x y : Reg) (n : BitVec 4) (s : State) : Result :=
  if InRange s.i.toNat (spriteRows s y n) then
    .next ((s.setReg vF (flagByte (drawSprite s x y n).hit)).setDisplay (drawSprite s x y n).fb)
  else raiseFatal .memoryOutOfRange s

end Sys2Proof.Machine
end

