-- ==== Sys2Proof/Machine/IndexMemory.lean ====
section
/-!
DEFINITION. The index register and memory transfers (44_index_memory.md R101 to R106). Every address is checked before the
first write (20_memory.md R45); I is left as it was by FX33, FX55 and FX65.
-/

namespace Sys2Proof.Machine

/-- LD I, NNN (R101). -/
def execLdI (nnn : BitVec 12) (s : State) : Result := .next (s.setIndex (zext16 nnn))

/-- ADD I, Vx (R102): VF is not written. -/
def execAddI (x : Reg) (s : State) : Result := .next (s.setIndex (indexSum s x))

/-- LD F, Vx (R103). -/
def execLdF (x : Reg) (s : State) : Result := .next (s.setIndex (glyphAddress Config.fontAddrHigh (s.reg x)))

/-- LD B, Vx (R104). -/
def execLdB (x : Reg) (s : State) : Result :=
  if InRange s.i.toNat 3 then .next (s.setMem (s.mem.writeBytes s.i.toNat (decimalDigits (s.reg x))))
  else raiseFatal .memoryOutOfRange s

/-- LD [I], Vx (R105). -/
def execLdMemVx (x : Reg) (s : State) : Result :=
  if InRange s.i.toNat (regCount x) then .next (s.setMem (s.mem.writeBytes s.i.toNat (regsUpTo s x)))
  else raiseFatal .memoryOutOfRange s

/-- LD Vx, [I] (R106). -/
def execLdVxMem (x : Reg) (s : State) : Result :=
  if InRange s.i.toNat (regCount x) then .next { s with v := loadRegs s x s.i.toNat }
  else raiseFatal .memoryOutOfRange s

end Sys2Proof.Machine
end

