-- ==== Sys2Proof/Machine/Keypad.lean ====
section
/-!
DEFINITION. The keypad (46_keypad.md R110 to R113).
-/

namespace Sys2Proof.Machine

/-- SKP Vx (R110): a key index above 0x0F is Fatal(KeyIndexOutOfRange). -/
def execSkp (x : Reg) (s : State) : Result :=
  match keyOperand s x with
  | some k => .next (skipIf (s.held k) s)
  | none => raiseFatal .keyIndexOutOfRange s

/-- SKNP Vx (R111): a key index above 0x0F is Fatal(KeyIndexOutOfRange). -/
def execSknp (x : Reg) (s : State) : Result :=
  match keyOperand s x with
  | some k => .next (skipIf (!s.held k) s)
  | none => raiseFatal .keyIndexOutOfRange s

/-- LD Vx, K (R112): PC goes back to this instruction until the awaited key is seen released. -/
def execLdVxK (x : Reg) (s : State) : Result :=
  match s.ak with
  | none =>
    match leastHeld s with
    | some k => .next ((s.setAwaited (some k)).setPc (s.pc - 2))
    | none => .next (s.setPc (s.pc - 2))
  | some k =>
    if s.held k then .next (s.setPc (s.pc - 2))
    else .next ((s.setReg x (BitVec.ofNat 8 k.val)).setAwaited none)

end Sys2Proof.Machine
end

