-- ==== Sys2Proof/Machine/Skip.lean ====
section
/-!
DEFINITION. Conditional skips (42_skip.md R83 to R87).
-/

namespace Sys2Proof.Machine

/-- SE Vx, NN (R84). -/
def execSeImm (x : Reg) (nn : Byte) (s : State) : Result := .next (skipIf (s.reg x == nn) s)

/-- SNE Vx, NN (R85). -/
def execSneImm (x : Reg) (nn : Byte) (s : State) : Result := .next (skipIf (s.reg x != nn) s)

/-- SE Vx, Vy (R86). -/
def execSeReg (x y : Reg) (s : State) : Result := .next (skipIf (s.reg x == s.reg y) s)

/-- SNE Vx, Vy (R87). -/
def execSneReg (x y : Reg) (s : State) : Result := .next (skipIf (s.reg x != s.reg y) s)

end Sys2Proof.Machine
end

