-- ==== Sys2Proof/Machine/Timers.lean ====
section
/-!
DEFINITION. Timer access (47_timers.md R114 to R116). The timers' decrement is the host's tick (Machine/HostOps.lean).
-/

namespace Sys2Proof.Machine

/-- LD Vx, DT (R114). -/
def execLdVxDt (x : Reg) (s : State) : Result := .next (s.setReg x s.dt)

/-- LD DT, Vx (R115). -/
def execLdDtVx (x : Reg) (s : State) : Result := .next (s.setDt (s.reg x))

/-- LD ST, Vx (R116). -/
def execLdStVx (x : Reg) (s : State) : Result := .next (s.setSt (s.reg x))

end Sys2Proof.Machine
end

