-- ==== Sys2Proof/Machine/Step.lean ====
section
/-!
DEFINITION. The step of 40_step.md R74: one fetch, one advance, one instruction or the unrecognized no-op.
-/

namespace Sys2Proof.Machine

/-- The fetch, advance, decode and execute of a step taken in Running (R70 to R73). -/
def runStep (s : State) : Host.Outcome State Fault Refusal :=
  if FetchOutOfRange s then fetchFault s
  else
    match decodeWord (fetchWord s) with
    | .ok i => exec i (advance (fetchWord s) s)
    | .error _ => unrecognized (advance (fetchWord s) s)

/-- One step. In Paused and Halted the request is given no transition (R69). -/
def step (s : State) : Host.Outcome State Fault Refusal :=
  match s.rs with
  | .running => runStep s
  | .paused => .refused .stepNotRunning
  | .halted => .refused .stepNotRunning

/-- `s` with the instruction word of spec/opcode_table.json's numbering stored at PC, high byte first, where the next step
fetches it; nothing else is changed (log entry 3). -/
def State.withFetchWord (s : State) (nbits w : Nat) : State := placeWord (BitVec.ofNat 16 (w % 2 ^ nbits)) s

end Sys2Proof.Machine
end

