-- ==== Sys2Proof/Machine/HostOps.lean ====
section
/-!
DEFINITION. The host's side of the core: the ports of 60_exceptions.md R124. Each operation is atomic and happens between steps
(40_step.md R76). `perform` gives one operation of either agent, `schedule` a sequence of them in the order the host chooses
(R129), the core's own steps among them.
-/

namespace Sys2Proof.Machine

/-! ## Inputs -/

/-- One decrement of a timer: down by one when nonzero, frozen at zero. -/
def countDown (b : Byte) : Byte := if b = 0 then 0 else b - 1

/-- `tick` (R123): both timers, in every run-state. -/
def tick (s : State) : State := { s with dt := countDown s.dt, st := countDown s.st }

/-- `keys` (R125): the host writes all 16 keys. -/
def writeKeys (k : Vector Bool Config.nKeys) (s : State) : State := { s with keys := k }

/-- `dirty_clear` (R126). -/
def clearDirty (s : State) : State := { s with dirty := false }

/-- The values of the `cmd` port (R124). -/
inductive Command where
  | none
  | pause
  | resume
  | halt
  deriving DecidableEq, Repr

/-- `cmd` (R128): only RS and, for Halt, HR change; in Halted nothing does. -/
def command (c : Command) (s : State) : State :=
  match s.rs, c with
  | .halted, _ => s
  | _, .none => s
  | .running, .pause => { s with rs := .paused }
  | .paused, .pause => s
  | .running, .resume => s
  | .paused, .resume => { s with rs := .running }
  | _, .halt => { s with rs := .halted, hr := .hostHalt }

/-- Memory after a load of the image: the font and zeros, and the image from 0x200 (70_reset_and_hazards.md R139). -/
def loadedMemory (image : List Byte) : Memory := Memory.writeBytes [] Config.progBase image

/-- `load` (70_reset_and_hazards.md R136 to R139), with `none` for an image that could not be obtained. It re-initialises the
whole core; only the model's draw counter runs on, so that a re-loaded program does not see its draws again. -/
def load (image : Option (List Byte)) (s : State) : Result :=
  match image with
  | none => .fault .programUnreadable
  | some bytes =>
    if bytes.length > Config.progMax then .fault .programTooLarge
    else .next { State.reset with mem := loadedMemory bytes, draws := s.draws }

/-! ## Outputs -/

/-- `fb` (R126; 10_state.md R22): the cell of flat index y*64 + x. -/
def fbOutput (s : State) (k : Fin (Config.fbW * Config.fbH)) : Bool :=
  (s.fb[k.val / Config.fbW]'(Nat.div_lt_of_lt_mul k.isLt))[k.val % Config.fbW]'(Nat.mod_lt _ (by decide))

/-- `sound` (R127). -/
def soundOutput (s : State) : Bool := decide (s.st > 0)

/-- `run_state`, 2 bits (10_state.md R26). -/
def RunState.code : RunState → BitVec 2
  | .running => 0
  | .paused => 1
  | .halted => 2

/-- `halt_reason`, 3 bits (10_state.md R27). -/
def HaltReason.code : HaltReason → BitVec 3
  | .none => 0
  | .stackOverflow => 1
  | .stackUnderflow => 2
  | .fetchOutOfRange => 3
  | .memoryOutOfRange => 4
  | .keyIndexOutOfRange => 5
  | .hostHalt => 6

/-- AK as a valid bit and a 4-bit key (10_state.md R24, R31). -/
def awaitedCode : Option Key → BitVec 5
  | none => 0
  | some k => 1#1 ++ BitVec.ofFin (w := 4) k

/-- The values of the `init_status` port (R124). -/
inductive InitStatus where
  | ok
  | programTooLarge
  | programUnreadable
  deriving DecidableEq, Repr

/-- `init_status`, the outcome of `load` on an image (70_reset_and_hazards.md R137, R138). -/
def initStatus : Option (List Byte) → InitStatus
  | none => .programUnreadable
  | some bytes => if bytes.length > Config.progMax then .programTooLarge else .ok

/-! ## Schedules -/

/-- One operation of the core or the host. -/
inductive Event where
  | step
  | tick
  | keys (k : Vector Bool Config.nKeys)
  | command (c : Command)
  | clearDirty
  | load (image : Option (List Byte))
  deriving DecidableEq, Repr

/-- One atomic operation (10_state.md R13). -/
def perform (e : Event) (s : State) : Result :=
  match e with
  | .step => Sys2Proof.Machine.step s
  | .tick => .next (Sys2Proof.Machine.tick s)
  | .keys k => .next (writeKeys k s)
  | .command c => .next (Sys2Proof.Machine.command c s)
  | .clearDirty => .next (Sys2Proof.Machine.clearDirty s)
  | .load image => Sys2Proof.Machine.load image s

/-- A schedule of operations, stopping at the first fault or refusal. -/
def schedule : List Event → State → Result
  | [], s => .next s
  | e :: es, s =>
    match perform e s with
    | .next t => schedule es t
    | .fault f => .fault f
    | .refused r => .refused r

end Sys2Proof.Machine
end

