-- ==== Sys2Proof/Safety.lean ====
section
/-!
DEFINITION. The terms claims are made in: what an operation may change (`Element`, `ChangesOnly`), when an instruction
completes (`Completes`), what counts as a fault, a host stop and the end of a run (60_exceptions.md R133), and the invariant
every operation keeps.
-/

namespace Sys2Proof.Machine

/-- The elements of state of 10_state.md R13, and the model's draw counter. -/
inductive Element where
  | v | i | pc | stack | sp | dt | st | fb | keys | ak | dirty | rs | hr | ci | uc | mem | draws
  deriving DecidableEq, Repr

/-- The element holds in `t` what it holds in `s`: of the registers each one, of memory every byte. -/
def Element.Same (s t : State) : Element → Prop
  | .v => ∀ r, t.reg r = s.reg r
  | .i => t.i = s.i
  | .pc => t.pc = s.pc
  | .stack => t.stack = s.stack
  | .sp => t.sp = s.sp
  | .dt => t.dt = s.dt
  | .st => t.st = s.st
  | .fb => t.fb = s.fb
  | .keys => t.keys = s.keys
  | .ak => t.ak = s.ak
  | .dirty => t.dirty = s.dirty
  | .rs => t.rs = s.rs
  | .hr => t.hr = s.hr
  | .ci => t.ci = s.ci
  | .uc => t.uc = s.uc
  | .mem => ∀ a, t.mem.read a = s.mem.read a
  | .draws => t.draws = s.draws

/-- `t` is `s` in every element outside the list. -/
def ChangesOnly (es : List Element) (s t : State) : Prop := ∀ e, e ∉ es → e.Same s t

/-- The registers outside the list keep their values. -/
def KeepsRegs (rs : List Reg) (s t : State) : Prop := ∀ r, r ∉ rs → t.reg r = s.reg r

/-- Every byte outside the `n` bytes at `a` reads as before. -/
def KeepsBytesOutside (a n : Nat) (s t : State) : Prop := ∀ k, k < a ∨ a + n ≤ k → t.mem.read k = s.mem.read k

/-- `i` answers a next state from `s`, and it satisfies `P`. -/
def Completes (i : Instr) (s : State) (P : State → Prop) : Prop := ∃ t, exec i s = .next t ∧ P t

/-- `i` raises Fatal(reason) from `s`: the state `t` of 60_exceptions.md R118, with PC back at the instruction. -/
def RaisesFatal (i : Instr) (s : State) (reason : HaltReason) : Prop :=
  Completes i s fun t =>
    t.pc = s.pc - 2 ∧ t.rs = .halted ∧ t.hr = reason ∧ ChangesOnly [.pc, .rs, .hr] s t

/-- The condition of a skip instruction in `s`, none for every other instruction and for a key index that names no key
(42_skip.md R84 to R87; 46_keypad.md R110, R111). -/
def skipCondition (s : State) : Instr → Option Bool
  | .seImm x nn => some (s.reg x == nn)
  | .sneImm x nn => some (s.reg x != nn)
  | .seReg x y => some (s.reg x == s.reg y)
  | .sneReg x y => some (s.reg x != s.reg y)
  | .skp x => (keyOperand s x).map fun k => s.held k
  | .sknp x => (keyOperand s x).map fun k => !s.held k
  | .sys _ | .cls | .ret | .jp _ | .call _ | .ldImm _ _ | .addImm _ _ | .ldReg _ _ | .orReg _ _ | .andReg _ _ | .xorReg _ _
  | .addReg _ _ | .subReg _ _ | .shr _ _ | .subnReg _ _ | .shl _ _ | .ldI _ | .jpV0 _ | .rnd _ _ | .drw _ _ _ | .ldVxDt _
  | .ldVxK _ | .ldDtVx _ | .ldStVx _ | .addI _ | .ldF _ | .ldB _ | .ldMemVx _ | .ldVxMem _ => none

/-- The registers an instruction may write by naming them as its destination: X, or V0 to VX for FX65 (10_state.md R15). The
flag register of a flag-setting instruction is not among them. -/
def destinations : Instr → List Reg
  | .ldImm x _ | .addImm x _ | .ldReg x _ | .orReg x _ | .andReg x _ | .xorReg x _ | .addReg x _ | .subReg x _ | .shr x _
  | .subnReg x _ | .shl x _ | .rnd x _ | .ldVxDt x | .ldVxK x => [x]
  | .ldVxMem x => (List.finRange Config.nRegs).filter fun r => r ≤ x
  | .sys _ | .cls | .ret | .jp _ | .call _ | .seImm _ _ | .sneImm _ _ | .seReg _ _ | .sneReg _ _ | .ldI _ | .jpV0 _ | .drw _ _ _
  | .skp _ | .sknp _ | .ldDtVx _ | .ldStVx _ | .addI _ | .ldF _ | .ldB _ | .ldMemVx _ => []

/-- The instructions that write VF as a side effect (10_state.md R15). -/
def setsFlag : Instr → Bool
  | .addReg _ _ | .subReg _ _ | .shr _ _ | .subnReg _ _ | .shl _ _ | .drw _ _ _ => true
  | .sys _ | .cls | .ret | .jp _ | .call _ | .seImm _ _ | .sneImm _ _ | .seReg _ _ | .ldImm _ _ | .addImm _ _ | .ldReg _ _
  | .orReg _ _ | .andReg _ _ | .xorReg _ _ | .sneReg _ _ | .ldI _ | .jpV0 _ | .rnd _ _ | .skp _ | .sknp _ | .ldVxDt _ | .ldVxK _
  | .ldDtVx _ | .ldStVx _ | .addI _ | .ldF _ | .ldB _ | .ldMemVx _ | .ldVxMem _ => false

/-- The bit on the cell in column `cx` and row `cy` of a sprite of `n` rows, read at I, whose top left cell is column `x0` and
row `y0`: bit 7 - (cx - x0) of the byte at I + (cy - y0), off outside the sprite and outside the screen (45_display.md R108). -/
def spriteBitFrom (s : State) (x0 y0 n cx cy : Nat) : Bool :=
  decide (x0 ≤ cx ∧ cx < x0 + 8 ∧ cx < 64 ∧ y0 ≤ cy ∧ cy < y0 + n ∧ cy < 32) &&
    (s.mem.read (s.i.toNat + (cy - y0))).getLsbD (7 - (cx - x0))

/-- The sprite bit that DXYN from `s` draws on the cell in column `cx` and row `cy`: the origin is column V[X] mod 64 and row
V[Y] mod 32 (45_display.md R108). -/
def spriteBit (s : State) (x y : Reg) (n : BitVec 4) (cx cy : Nat) : Bool :=
  spriteBitFrom s ((s.reg x).toNat % 64) ((s.reg y).toNat % 32) n.toNat cx cy

/-- If address `a` holds a byte of the word at PC, that byte of the word fetched is `b`: the high one at PC, the low one at PC + 1
(20_memory.md R39, R50). -/
def FetchedAt (t : State) (a b : Nat) : Prop :=
  (t.pc.toNat = a → (fetchWord t).toNat / 256 = b) ∧ (t.pc.toNat + 1 = a → (fetchWord t).toNat % 256 = b)

/-- The codes 1 to 5 of 60_exceptions.md R117: a step ended the run by a fatal condition. -/
def HaltReason.isFatal : HaltReason → Bool
  | .none => false
  | .hostHalt => false
  | .stackOverflow | .stackUnderflow | .fetchOutOfRange | .memoryOutOfRange | .keyIndexOutOfRange => true

/-- The run has ended in a fault (60_exceptions.md R133 (a)). -/
abbrev Faulted (s : State) : Prop := s.rs = .halted ∧ s.hr.isFatal = true

/-- The run has ended by the host's Halt (60_exceptions.md R133 (a)). -/
abbrev HostStopped (s : State) : Prop := s.rs = .halted ∧ s.hr = .hostHalt

/-- The run has ended parked at a self-jump: the word at PC is 1NNN with NNN = PC (60_exceptions.md R133 (b)). -/
abbrev Parked (s : State) : Prop :=
  s.rs = .running ∧ s.pc.toNat ≤ 0xFFE ∧ fetchWord s = wordNNN 0x1 (s.pc.setWidth 12)

/-- The invariant: memory is in its canonical form inside the 4096 bytes (20_memory.md R34); HR is nonzero exactly when RS =
Halted (10_state.md R27); PC is at most 0x10FE (10_state.md R17); every stack entry is at most 0x1000, the address after the
last word that can be fetched. -/
abbrev StateInv (s : State) : Prop :=
  s.mem.wf ∧ (s.rs = .halted ↔ s.hr ≠ .none) ∧ s.pc.toNat ≤ 0x10FE ∧
    ∀ k : Fin Config.stackDepth, (s.stack[k]).toNat ≤ 0x1000

/-- A state that some schedule of the core and the host reaches from reset. -/
def Reachable (s : State) : Prop := ∃ es, schedule es State.reset = .next s

end Sys2Proof.Machine
end

