-- ==== Sys2Proof/Certificates/Slice0/Obligations.lean ====
section
/-!
DEFINITION. The statements for the provers, from the numbered rules of spec/. Each docstring names the rule it formalises. Where
a clause rests on a decision the spec marks as its own (92_eei_decisions.md D<n>) or on general knowledge it marks as such
(93_implementation_defined.md G<n>), the docstring says so.
-/

open Sys2Proof Sys2Proof.Machine

/-! ## Encoding -/

/-- Words of the spec and the instructions they stand for, one or more for each of the sixteen top nibbles (30_encoding.md R58,
R66; the words are those of the rules' own examples). Every pattern but 6XNN and 8XY4 is the spec's general knowledge G1 (log
entry 12). -/
def Obligations.DecodesWordsOfTheSpec : Prop :=
  decodeWord 0x0123 = .ok (.sys 0x123) ∧ decodeWord 0x00E0 = .ok .cls ∧ decodeWord 0x00EE = .ok .ret ∧
  decodeWord 0x1234 = .ok (.jp 0x234) ∧ decodeWord 0x2300 = .ok (.call 0x300) ∧ decodeWord 0x3342 = .ok (.seImm 3 0x42) ∧
  decodeWord 0x4342 = .ok (.sneImm 3 0x42) ∧ decodeWord 0x5120 = .ok (.seReg 1 2) ∧ decodeWord 0x600A = .ok (.ldImm 0 0x0A) ∧
  decodeWord 0x7220 = .ok (.addImm 2 0x20) ∧ decodeWord 0x8014 = .ok (.addReg 0 1) ∧ decodeWord 0x9120 = .ok (.sneReg 1 2) ∧
  decodeWord 0xA2F0 = .ok (.ldI 0x2F0) ∧ decodeWord 0xB300 = .ok (.jpV0 0x300) ∧ decodeWord 0xC30F = .ok (.rnd 3 0x0F) ∧
  decodeWord 0xD015 = .ok (.drw 0 1 5) ∧ decodeWord 0xE19E = .ok (.skp 1) ∧ decodeWord 0xF30A = .ok (.ldVxK 3) ∧
  decodeWord 0xF255 = .ok (.ldMemVx 2)

/-- Decoding the word of a well-formed instruction gives it back, for either value of `STRICT_LOW_NIBBLE`, and decoding its two
bytes gives it and the bytes after them. -/
def Obligations.DecodeOfEncodeIsTheInstruction : Prop :=
  ∀ (i : Instr), i.wf = true →
    (∀ strict, decodeWith strict (encode i) = .ok i) ∧ ∀ rest, decode (encodeBytes i ++ rest) = .ok (i, rest)

/-- With `STRICT_LOW_NIBBLE` true each word has one meaning: the word of the instruction a word decodes to is that word, and the
instruction is well formed. It rests on the spec's decision D10 (log entry 10): with the parameter false 5XY1 decodes to SE
Vx, Vy, whose word is 5XY0. That every family 0 word but 00E0 and 00EE is SYS is its decision D11, the patterns its general
knowledge G1 (log entry 12). -/
def Obligations.EncodeOfDecodeIsTheWord : Prop :=
  ∀ (op : Word) (i : Instr), decodeWord op = .ok i → encode i = op ∧ i.wf = true

/-- With `STRICT_LOW_NIBBLE` true the unrecognized words are exactly those of 30_encoding.md R65 (its counts are not stated), read
from the word's digits. Families 5 and 9 rest on the spec's decision D10 (log entry 10), the absence of family 0 on its decision
D11, and all the patterns on its general knowledge G1 (both log entry 12). -/
def Obligations.UnrecognizedWordsAreExactlyTheListed : Prop :=
  ∀ (op : Word), (∃ r, decodeWord op = .error r) ↔
    ((op.toNat / 0x1000 = 0x5 ∨ op.toNat / 0x1000 = 0x9) ∧ op.toNat % 0x10 ≠ 0) ∨
    (op.toNat / 0x1000 = 0x8 ∧ op.toNat % 0x10 ∈ [0x8, 0x9, 0xA, 0xB, 0xC, 0xD, 0xF]) ∨
    (op.toNat / 0x1000 = 0xE ∧ op.toNat % 0x100 ∉ [0x9E, 0xA1]) ∨
    (op.toNat / 0x1000 = 0xF ∧ op.toNat % 0x100 ∉ [0x07, 0x0A, 0x15, 0x18, 0x1E, 0x29, 0x33, 0x55, 0x65])

/-- Families 0x5 and 0x9 under either value of `STRICT_LOW_NIBBLE` (30_encoding.md R60, the spec's decision D10). -/
def Obligations.LowNibbleMattersOnlyWhenStrict : Prop :=
  ∀ (x y : Reg) (n : BitVec 4),
    decodeWith true (wordXYN 0x5 x y n) = (if n = 0 then .ok (.seReg x y) else .error .skipNibble5) ∧
    decodeWith true (wordXYN 0x9 x y n) = (if n = 0 then .ok (.sneReg x y) else .error .skipNibble9) ∧
    decodeWith false (wordXYN 0x5 x y n) = .ok (.seReg x y) ∧
    decodeWith false (wordXYN 0x9 x y n) = .ok (.sneReg x y)

/-! ## The step -/

/-- A step runs the instruction its two bytes, combined big-endian, decode to, with CI the word and PC advanced by 2
(40_step.md R71, R72, R73; 20_memory.md R39). -/
def Obligations.StepRunsTheDecodedInstruction : Prop :=
  ∀ (s : State) (op : Word) (i : Instr), s.rs = .running → s.pc.toNat ≤ 0xFFE →
    op.toNat = (s.mem.read s.pc.toNat).toNat * 256 + (s.mem.read (s.pc.toNat + 1)).toNat →
    decodeWord op = .ok i →
    step s = exec i { s with ci := op, pc := s.pc + 2 }

/-- A step on a word the dispatch does not cover counts it in UC modulo 2^32, sets CI and advances PC by 2, and changes nothing
else (30_encoding.md R64, with the counter the spec's decision D9). -/
def Obligations.StepCountsUnrecognizedWords : Prop :=
  ∀ (s : State) (r : Reject), s.rs = .running → s.pc.toNat ≤ 0xFFE → decodeWord (fetchWord s) = .error r →
    ∃ t, step s = .next t ∧ t.pc = s.pc + 2 ∧ t.ci = fetchWord s ∧ t.uc.toNat = (s.uc.toNat + 1) % 2 ^ 32 ∧
      ChangesOnly [.pc, .ci, .uc] s t

/-- A fetch above 0xFFE is fatal before any other effect: PC and CI keep their values (40_step.md R70, the bound and the policy
the spec's decisions D4 and D6). -/
def Obligations.FetchAboveMemoryIsFatal : Prop :=
  ∀ (s : State), s.rs = .running → s.pc.toNat > 0xFFE →
    ∃ t, step s = .next t ∧ t.rs = .halted ∧ t.hr = .fetchOutOfRange ∧ ChangesOnly [.rs, .hr] s t

/-- In Paused and in Halted a step request is given no transition (40_step.md R69, the spec's decision D24). -/
def Obligations.NoStepUnlessRunning : Prop :=
  ∀ (s : State), s.rs = .paused ∨ s.rs = .halted → step s = .refused .stepNotRunning

/-- A step taken in Running always completes: it answers a next state, still Running or Halted with one of the five fatal
reasons; no step ends in Paused (40_step.md R75). That the core itself enters Halted, with a reason in HR, is the spec's
decisions D7 and D8 (60_exceptions.md R118, 10_state.md R27; log entry 6). -/
def Obligations.EveryStepFromRunningCompletes : Prop :=
  ∀ (s : State), s.rs = .running →
    ∃ t, step s = .next t ∧ ((t.rs = .running ∧ t.hr = s.hr) ∨ (t.rs = .halted ∧ t.hr.isFatal = true))

/-- A fatal step is precise: the state equals the state before it except RS, HR and CI, and CI is the word fetched, or unwritten
where the fetch itself was out of range (60_exceptions.md R118, the spec's decisions D6 and D7). -/
def Obligations.FatalStepIsPrecise : Prop :=
  ∀ (s t : State), step s = .next t → t.rs = .halted →
    t.hr.isFatal = true ∧ ChangesOnly [.rs, .hr, .ci] s t ∧
      t.ci = (if s.pc.toNat > 0xFFE then s.ci else fetchWord s) ∧
      (t.hr = .fetchOutOfRange ↔ s.pc.toNat > 0xFFE)

/-! ## Control transfer and skips -/

/-- SYS NNN has no effect beyond the step's advance (41_control.md R77, the spec's decision D11). -/
def Obligations.SysIsANoOp : Prop :=
  ∀ (nnn : BitVec 12) (s : State), Completes (.sys nnn) s fun t => ChangesOnly [] s t

/-- JP NNN goes to NNN, and JP V0, NNN to NNN + V0 modulo 2^16 (41_control.md R78, R81). -/
def Obligations.JumpsGoToTheirTarget : Prop :=
  ∀ (nnn : BitVec 12) (s : State),
    (Completes (.jp nnn) s fun t => t.pc.toNat = nnn.toNat ∧ ChangesOnly [.pc] s t) ∧
    (Completes (.jpV0 nnn) s fun t =>
      t.pc.toNat = (nnn.toNat + (s.reg 0).toNat) % 2 ^ 16 ∧ ChangesOnly [.pc] s t)

/-- CALL NNN pushes PC, already advanced past it, and goes to NNN; with 12 entries in use it is fatal (41_control.md R79, the
overflow the spec's decision D2). -/
def Obligations.CallPushesTheReturnAddress : Prop :=
  ∀ (nnn : BitVec 12) (s : State),
    (s.sp.val < 12 → Completes (.call nnn) s fun t =>
      t.pc.toNat = nnn.toNat ∧ t.sp.val = s.sp.val + 1 ∧
      (∀ k : Fin 12, t.stack[k] = if k.val = s.sp.val then s.pc else s.stack[k]) ∧ ChangesOnly [.pc, .sp, .stack] s t) ∧
    (s.sp.val = 12 → RaisesFatal (.call nnn) s .stackOverflow)

/-- RET pops the newest entry into PC and leaves it in the stack; on an empty stack it is fatal (41_control.md R80, the underflow
the spec's decision D3). -/
def Obligations.RetPopsTheReturnAddress : Prop :=
  ∀ (s : State),
    (∀ k : Fin 12, s.sp.val = k.val + 1 → Completes .ret s fun t =>
      t.pc = s.stack[k] ∧ t.sp.val = k.val ∧ ChangesOnly [.pc, .sp] s t) ∧
    (s.sp.val = 0 → RaisesFatal .ret s .stackUnderflow)

/-- A call followed immediately by a return restores PC to the address after the call, and SP (95_test_vectors.md E9, from
41_control.md R79 and R80). -/
def Obligations.CallThenReturnComesBack : Prop :=
  ∀ (s : State) (nnn : BitVec 12), s.rs = .running → s.pc.toNat ≤ 0xFFE → s.sp.val < 12 → nnn.toNat ≤ 0xFFE →
    fetchWord s = encode (.call nnn) →
    wordOfBytes (s.mem.read nnn.toNat) (s.mem.read (nnn.toNat + 1)) = encode .ret →
    ∃ t u, step s = .next t ∧ t.pc.toNat = nnn.toNat ∧ step t = .next u ∧ u.pc = s.pc + 2 ∧
      ChangesOnly [.pc, .stack, .ci] s u

/-- SE and SNE against an immediate (42_skip.md R84, R85). -/
def Obligations.SkipsOnAnImmediate : Prop :=
  ∀ (x : Reg) (nn : Byte) (s : State),
    (Completes (.seImm x nn) s fun t => t.pc = (if s.reg x = nn then s.pc + 2 else s.pc) ∧ ChangesOnly [.pc] s t) ∧
    (Completes (.sneImm x nn) s fun t => t.pc = (if s.reg x = nn then s.pc else s.pc + 2) ∧ ChangesOnly [.pc] s t)

/-- SE and SNE between registers (42_skip.md R86, R87). -/
def Obligations.SkipsOnARegister : Prop :=
  ∀ (x y : Reg) (s : State),
    (Completes (.seReg x y) s fun t => t.pc = (if s.reg x = s.reg y then s.pc + 2 else s.pc) ∧ ChangesOnly [.pc] s t) ∧
    (Completes (.sneReg x y) s fun t => t.pc = (if s.reg x = s.reg y then s.pc else s.pc + 2) ∧ ChangesOnly [.pc] s t)

/-- A step that runs a skip advances PC by exactly 4 when its condition holds and exactly 2 otherwise, and changes PC and CI
alone: all six skips (42_skip.md R83). -/
def Obligations.SkipsAdvanceByFourOrTwo : Prop :=
  ∀ (s : State) (i : Instr) (c : Bool), s.rs = .running → s.pc.toNat ≤ 0xFFE →
    decodeWord (fetchWord s) = .ok i → skipCondition s i = some c →
    ∃ t, step s = .next t ∧ t.pc.toNat = s.pc.toNat + (if c then 4 else 2) ∧ ChangesOnly [.pc, .ci] s t

/-! ## Register loads and arithmetic -/

/-- LD Vx, NN (43_alu.md R89). -/
def Obligations.LoadImmediateWritesVx : Prop :=
  ∀ (x : Reg) (nn : Byte) (s : State),
    Completes (.ldImm x nn) s fun t => t.reg x = nn ∧ KeepsRegs [x] s t ∧ ChangesOnly [.v] s t

/-- ADD Vx, NN wraps at 256 and leaves VF alone unless it is the destination (43_alu.md R90, the flag from general knowledge
G4). -/
def Obligations.AddImmediateWrapsWithoutFlag : Prop :=
  ∀ (x : Reg) (nn : Byte) (s : State),
    Completes (.addImm x nn) s fun t =>
      (t.reg x).toNat = ((s.reg x).toNat + nn.toNat) % 256 ∧ KeepsRegs [x] s t ∧ ChangesOnly [.v] s t

/-- LD, OR, AND and XOR between registers: bit by bit, and VF is not reset (43_alu.md R91, R92, R93, R94). -/
def Obligations.LogicWritesVxAlone : Prop :=
  ∀ (x y : Reg) (s : State),
    (Completes (.ldReg x y) s fun t => t.reg x = s.reg y ∧ KeepsRegs [x] s t ∧ ChangesOnly [.v] s t) ∧
    (Completes (.orReg x y) s fun t =>
      (∀ k, (t.reg x).getLsbD k = ((s.reg x).getLsbD k || (s.reg y).getLsbD k)) ∧ KeepsRegs [x] s t ∧ ChangesOnly [.v] s t) ∧
    (Completes (.andReg x y) s fun t =>
      (∀ k, (t.reg x).getLsbD k = ((s.reg x).getLsbD k && (s.reg y).getLsbD k)) ∧ KeepsRegs [x] s t ∧ ChangesOnly [.v] s t) ∧
    (Completes (.xorReg x y) s fun t =>
      (∀ k, (t.reg x).getLsbD k = ((s.reg x).getLsbD k ^^ (s.reg y).getLsbD k)) ∧ KeepsRegs [x] s t ∧ ChangesOnly [.v] s t)

/-- ADD Vx, Vy: the sum modulo 256, and VF the carry out of the pre-operation values; with X = 0xF VF ends holding the flag
(43_alu.md R95, that clause the spec's decision D13). -/
def Obligations.AddSetsCarry : Prop :=
  ∀ (x y : Reg) (s : State),
    Completes (.addReg x y) s fun t =>
      (x ≠ vF → (t.reg x).toNat = ((s.reg x).toNat + (s.reg y).toNat) % 256) ∧
      t.reg vF = (if (s.reg x).toNat + (s.reg y).toNat > 255 then 1 else 0) ∧ KeepsRegs [x, vF] s t ∧ ChangesOnly [.v] s t

/-- SUB and SUBN: the difference modulo 256, and VF = no borrow of the pre-operation values; with X = 0xF VF ends holding the
flag (43_alu.md R96, R98, that clause the spec's decision D13). -/
def Obligations.SubtractsSetNoBorrow : Prop :=
  ∀ (x y : Reg) (s : State),
    (Completes (.subReg x y) s fun t =>
      (x ≠ vF → ((t.reg x).toNat + (s.reg y).toNat) % 256 = (s.reg x).toNat) ∧
      t.reg vF = (if (s.reg y).toNat ≤ (s.reg x).toNat then 1 else 0) ∧ KeepsRegs [x, vF] s t ∧ ChangesOnly [.v] s t) ∧
    (Completes (.subnReg x y) s fun t =>
      (x ≠ vF → ((t.reg x).toNat + (s.reg x).toNat) % 256 = (s.reg y).toNat) ∧
      t.reg vF = (if (s.reg x).toNat ≤ (s.reg y).toNat then 1 else 0) ∧ KeepsRegs [x, vF] s t ∧ ChangesOnly [.v] s t)

/-- SHR and SHL shift Vx by one, Y ignored, and VF is the bit shifted out; with X = 0xF VF ends holding the flag (43_alu.md R97,
R99, the source register the spec's decision D12, the last clause its decision D13). -/
def Obligations.ShiftsSetTheBitShiftedOut : Prop :=
  ∀ (x y : Reg) (s : State),
    (Completes (.shr x y) s fun t =>
      (x ≠ vF → (t.reg x).toNat = (s.reg x).toNat / 2) ∧
      (t.reg vF).toNat = (s.reg x).toNat % 2 ∧ KeepsRegs [x, vF] s t ∧ ChangesOnly [.v] s t) ∧
    (Completes (.shl x y) s fun t =>
      (x ≠ vF → (t.reg x).toNat = (s.reg x).toNat * 2 % 256) ∧
      (t.reg vF).toNat = (s.reg x).toNat / 128 ∧ KeepsRegs [x, vF] s t ∧ ChangesOnly [.v] s t)

/-- The order of a flag-setting instruction's two writes matters only when X = 0xF: then the last one stands (43_alu.md R88, the
parameter `FLAG_LAST` the spec's decision D13). -/
def Obligations.WriteOrderMattersOnlyForVF : Prop :=
  ∀ (x : Reg) (o : Flagged) (s : State),
    (x ≠ vF → ∀ last r, (writeRF last x o s).reg r = if r = x then o.r else if r = vF then flagByte o.f else s.reg r) ∧
    (writeRF true vF o s).reg vF = flagByte o.f ∧ (writeRF false vF o s).reg vF = o.r

/-- RND Vx, NN: the draw of this execution AND NN, and the next execution takes the next draw; with NN = 0 the result is 0
whatever the draw (43_alu.md R100, the draw the spec's decision D27; `draws` is the model's own, log entry 2). -/
def Obligations.RandomIsADrawAndNN : Prop :=
  ∀ (x : Reg) (nn : Byte) (s : State),
    Completes (.rnd x nn) s fun t =>
      t.reg x = Config.rand s.draws &&& nn ∧ (nn = 0 → t.reg x = 0) ∧ t.draws = s.draws + 1 ∧
      KeepsRegs [x] s t ∧ ChangesOnly [.v, .draws] s t

/-! ## Index register and memory -/

/-- LD I, NNN (44_index_memory.md R101). -/
def Obligations.LoadIndexWritesI : Prop :=
  ∀ (nnn : BitVec 12) (s : State), Completes (.ldI nnn) s fun t => t.i.toNat = nnn.toNat ∧ ChangesOnly [.i] s t

/-- ADD I, Vx wraps at 2^16 without a flag, and LD F, Vx is 5 * V[X] for every value (44_index_memory.md R102, R103; the spec's
decisions D20 and D16 and general knowledge G3 and G5). -/
def Obligations.IndexAddAndFontAddress : Prop :=
  ∀ (x : Reg) (s : State),
    (Completes (.addI x) s fun t => t.i.toNat = (s.i.toNat + (s.reg x).toNat) % 2 ^ 16 ∧ ChangesOnly [.i] s t) ∧
    (Completes (.ldF x) s fun t => t.i.toNat = 5 * (s.reg x).toNat ∧ ChangesOnly [.i] s t)

/-- LD B, Vx: the three decimal digits at I, I+1, I+2, hundreds first, and no other byte (44_index_memory.md R104, the digits'
order from general knowledge G6). -/
def Obligations.BcdStoresThreeDigits : Prop :=
  ∀ (x : Reg) (s : State), s.mem.wf → s.i.toNat ≤ 0xFFD →
    Completes (.ldB x) s fun t =>
      (t.mem.read s.i.toNat).toNat = (s.reg x).toNat / 100 ∧
      (t.mem.read (s.i.toNat + 1)).toNat = (s.reg x).toNat / 10 % 10 ∧
      (t.mem.read (s.i.toNat + 2)).toNat = (s.reg x).toNat % 10 ∧
      KeepsBytesOutside s.i.toNat 3 s t ∧ ChangesOnly [.mem] s t

/-- LD [I], Vx: V0 to VX at I to I + X, no other byte, and I unchanged (44_index_memory.md R105). -/
def Obligations.DumpStoresV0ToVx : Prop :=
  ∀ (x : Reg) (s : State), s.mem.wf → s.i.toNat + x.val ≤ 0xFFF →
    Completes (.ldMemVx x) s fun t =>
      (∀ r : Reg, r ≤ x → t.mem.read (s.i.toNat + r.val) = s.reg r) ∧
      KeepsBytesOutside s.i.toNat (x.val + 1) s t ∧ ChangesOnly [.mem] s t

/-- LD Vx, [I]: V0 to VX from I to I + X, the registers above VX and I unchanged (44_index_memory.md R106). -/
def Obligations.LoadFillsV0ToVx : Prop :=
  ∀ (x : Reg) (s : State), s.i.toNat + x.val ≤ 0xFFF →
    Completes (.ldVxMem x) s fun t =>
      (∀ r : Reg, r ≤ x → t.reg r = s.mem.read (s.i.toNat + r.val)) ∧ (∀ r : Reg, x < r → t.reg r = s.reg r) ∧
      ChangesOnly [.v] s t

/-- An access above 0xFFF is fatal before any write: FX33, FX55, FX65, and DXYN for the rows it would draw (20_memory.md R45, the
spec's decision D5). -/
def Obligations.AccessAboveMemoryIsFatal : Prop :=
  ∀ (x y : Reg) (n : BitVec 4) (s : State),
    (s.i.toNat + 2 > 0xFFF → RaisesFatal (.ldB x) s .memoryOutOfRange) ∧
    (s.i.toNat + x.val > 0xFFF → RaisesFatal (.ldMemVx x) s .memoryOutOfRange ∧ RaisesFatal (.ldVxMem x) s .memoryOutOfRange) ∧
    (∀ rows, rows = min n.toNat (32 - (s.reg y).toNat % 32) → rows > 0 → s.i.toNat + rows - 1 > 0xFFF →
      RaisesFatal (.drw x y n) s .memoryOutOfRange)

/-- Registers dumped by FX55 are restored by FX65 at the same I, whatever the registers hold in between (44_index_memory.md
R105, R106). -/
def Obligations.DumpThenLoadRestores : Prop :=
  ∀ (x : Reg) (s t u : State), s.mem.wf → s.i.toNat + x.val ≤ 0xFFF → exec (.ldMemVx x) s = .next t →
    u.mem = t.mem → u.i = t.i →
    Completes (.ldVxMem x) u fun w => ∀ r : Reg, w.reg r = if r ≤ x then s.reg r else u.reg r

/-- A store is seen by the next fetch: after FX33 the bytes of the next word fetched that stand at I, I+1 and I+2 are the three
digits, after FX55 those that stand at I to I + X are V0 to VX, and those that stand elsewhere are the old ones, at every PC
(20_memory.md R50; the digits' order is general knowledge G6, log entry 12). -/
def Obligations.StoredBytesAreFetched : Prop :=
  ∀ (x : Reg) (s : State), s.mem.wf →
    (s.i.toNat ≤ 0xFFD → Completes (.ldB x) s fun t =>
      FetchedAt t s.i.toNat ((s.reg x).toNat / 100) ∧ FetchedAt t (s.i.toNat + 1) ((s.reg x).toNat / 10 % 10) ∧
      FetchedAt t (s.i.toNat + 2) ((s.reg x).toNat % 10) ∧
      ∀ a, a < s.i.toNat ∨ s.i.toNat + 3 ≤ a → FetchedAt t a (s.mem.read a).toNat) ∧
    (s.i.toNat + x.val ≤ 0xFFF → Completes (.ldMemVx x) s fun t =>
      (∀ r : Reg, r ≤ x → FetchedAt t (s.i.toNat + r.val) (s.reg r).toNat) ∧
      ∀ a, a < s.i.toNat ∨ s.i.toNat + x.val < a → FetchedAt t a (s.mem.read a).toNat)

/-! ## Display -/

/-- CLS turns every cell off and sets DIRTY (45_display.md R107). -/
def Obligations.ClearTurnsEveryCellOff : Prop :=
  ∀ (s : State), Completes .cls s fun t =>
    (∀ x y, x < 64 → y < 32 → t.fb.pixel x y = false) ∧ t.dirty = true ∧ ChangesOnly [.fb, .dirty] s t

/-- DRW as a whole: each cell is the old one XOR the bit of the sprite that stands at column V[X] mod 64 and row V[Y] mod 32,
clipped at the edges, and VF is 1 exactly when a set bit fell on a cell that was on before the draw; DIRTY is set, N = 0
included (45_display.md R108, bit 7 leftmost from general knowledge G9, the old VF as a coordinate and the rows past the edge the
spec's decisions D14 and D15). -/
def Obligations.DrawXorsTheClippedSprite : Prop :=
  ∀ (x y : Reg) (n : BitVec 4) (s : State),
    (∀ rows, rows = min n.toNat (32 - (s.reg y).toNat % 32) → rows = 0 ∨ s.i.toNat + rows - 1 ≤ 0xFFF) →
    Completes (.drw x y n) s fun t =>
      (∀ cx cy, cx < 64 → cy < 32 → t.fb.pixel cx cy = (s.fb.pixel cx cy ^^ spriteBit s x y n cx cy)) ∧
      ((∃ cx cy, spriteBit s x y n cx cy = true ∧ s.fb.pixel cx cy = true) → t.reg vF = 1) ∧
      ((∀ cx cy, spriteBit s x y n cx cy = true → s.fb.pixel cx cy = false) → t.reg vF = 0) ∧
      t.dirty = true ∧ KeepsRegs [vF] s t ∧ ChangesOnly [.v, .fb, .dirty] s t

/-- Drawing the same sprite twice restores every cell, and the second draw sets VF to 1 exactly when the first turned a cell from
off to on (45_display.md R109 (a) and (b); 90_conflicts.md C3). The rule excludes X or Y = 0xF, a sprite positioned by VF. -/
def Obligations.DrawTwiceRestoresTheScreen : Prop :=
  ∀ (x y : Reg) (n : BitVec 4) (s : State), x ≠ vF → y ≠ vF →
    (∀ rows, rows = min n.toNat (32 - (s.reg y).toNat % 32) → rows = 0 ∨ s.i.toNat + rows - 1 ≤ 0xFFF) →
    ∃ t u, exec (.drw x y n) s = .next t ∧ exec (.drw x y n) t = .next u ∧ u.fb = s.fb ∧
      (u.reg vF = 1 ↔ ∃ cx cy, s.fb.pixel cx cy = false ∧ t.fb.pixel cx cy = true)

/-! ## Keypad and timers -/

/-- SKP and SKNP skip when the key V[X] names is held, and when it is not; an index above 0x0F is fatal (46_keypad.md R110,
R111, the fatal the spec's decision D17). -/
def Obligations.KeySkipsReadTheKeypad : Prop :=
  ∀ (x : Reg) (s : State),
    (∀ k : Key, (s.reg x).toNat = k.val →
      (Completes (.skp x) s fun t => t.pc = (if s.keys[k] = true then s.pc + 2 else s.pc) ∧ ChangesOnly [.pc] s t) ∧
      (Completes (.sknp x) s fun t => t.pc = (if s.keys[k] = true then s.pc else s.pc + 2) ∧ ChangesOnly [.pc] s t)) ∧
    ((s.reg x).toNat > 0x0F →
      RaisesFatal (.skp x) s .keyIndexOutOfRange ∧ RaisesFatal (.sknp x) s .keyIndexOutOfRange)

/-- LD Vx, K commits the awaited key on the step that sees it released: V[X] is the key, AK none, and PC stays past the
instruction (46_keypad.md R112, the commit the spec's decision D19). -/
def Obligations.KeyReadCommitsOnRelease : Prop :=
  ∀ (x : Reg) (k : Key) (s : State), s.ak = some k → s.keys[k] = false →
    Completes (.ldVxK x) s fun t =>
      (t.reg x).toNat = k.val ∧ t.ak = none ∧ KeepsRegs [x] s t ∧ ChangesOnly [.v, .ak] s t

/-- LD Vx, K waits by going back to itself: while no key is seen, on the step that first sees one (the least-numbered held key is
then awaited), and while the awaited key is held (46_keypad.md R113, the least key the spec's decision D18). -/
def Obligations.KeyReadWaitsWithoutProgress : Prop :=
  ∀ (x : Reg) (s : State),
    (s.ak = none → (∀ k : Key, s.keys[k] = false) →
      Completes (.ldVxK x) s fun t => t.pc = s.pc - 2 ∧ ChangesOnly [.pc] s t) ∧
    (∀ k : Key, s.ak = none → s.keys[k] = true → (∀ j : Key, j < k → s.keys[j] = false) →
      Completes (.ldVxK x) s fun t => t.pc = s.pc - 2 ∧ t.ak = some k ∧ ChangesOnly [.pc, .ak] s t) ∧
    (∀ k : Key, s.ak = some k → s.keys[k] = true →
      Completes (.ldVxK x) s fun t => t.pc = s.pc - 2 ∧ ChangesOnly [.pc] s t)

/-- FX07 reads DT, FX15 writes it, FX18 writes ST (47_timers.md R114, R115, R116, from general knowledge G7). -/
def Obligations.TimerAccess : Prop :=
  ∀ (x : Reg) (s : State),
    (Completes (.ldVxDt x) s fun t => t.reg x = s.dt ∧ KeepsRegs [x] s t ∧ ChangesOnly [.v] s t) ∧
    (Completes (.ldDtVx x) s fun t => t.dt = s.reg x ∧ ChangesOnly [.dt] s t) ∧
    (Completes (.ldStVx x) s fun t => t.st = s.reg x ∧ ChangesOnly [.st] s t)

/-! ## The host's operations -/

/-- A tick takes each timer down by one when nonzero and leaves it at zero otherwise, in every run-state, and changes nothing
else (60_exceptions.md R123). -/
def Obligations.TickCountsBothTimersDown : Prop :=
  ∀ (s : State), ∃ t, perform .tick s = .next t ∧ t.dt.toNat = s.dt.toNat - 1 ∧ t.st.toNat = s.st.toNat - 1 ∧
    ChangesOnly [.dt, .st] s t

/-- The run-state commands are the table of 60_exceptions.md R128, and change only RS and, for Halt, HR (a command that names the
current state, and any command in Halted, the spec's decision D32). -/
def Obligations.CommandsFollowTheTable : Prop :=
  ∀ (s : State) (c : Command), ∃ t, perform (.command c) s = .next t ∧
    (s.rs = .halted → ChangesOnly [] s t) ∧
    (s.rs ≠ .halted → c = .none → ChangesOnly [] s t) ∧
    (s.rs ≠ .halted → c = .pause → t.rs = .paused ∧ ChangesOnly [.rs] s t) ∧
    (s.rs ≠ .halted → c = .resume → t.rs = .running ∧ ChangesOnly [.rs] s t) ∧
    (s.rs ≠ .halted → c = .halt → t.rs = .halted ∧ t.hr = .hostHalt ∧ ChangesOnly [.rs, .hr] s t)

/-- The host writes all 16 keys, clears DIRTY and reads the tone and the framebuffer's flat index (60_exceptions.md R125, R126,
R127; 10_state.md R22). -/
def Obligations.HostReadsAndWritesItsPorts : Prop :=
  ∀ (s : State) (k : Vector Bool 16),
    (∃ t, perform (.keys k) s = .next t ∧ t.keys = k ∧ ChangesOnly [.keys] s t) ∧
    (∃ t, perform .clearDirty s = .next t ∧ t.dirty = false ∧ ChangesOnly [.dirty] s t) ∧
    (soundOutput s = true ↔ s.st.toNat > 0) ∧
    (∀ (x y : Nat) (h : y * 64 + x < 2048), x < 64 → fbOutput s ⟨y * 64 + x, h⟩ = s.fb.pixel x y)

/-- A load of at most 3584 bytes re-initialises the whole core, whatever state it was in: the font, zeros and the image in memory,
PC at 0x200, the stack empty, Running (70_reset_and_hazards.md R139), and every other element zero, none or released (the spec's
decision D22). The model's draw counter runs on. -/
def Obligations.LoadInitialisesTheCore : Prop :=
  ∀ (image : List Byte) (s : State), image.length ≤ 3584 → ∃ t, perform (.load (some image)) s = .next t ∧
    (∀ a, a < 80 → t.mem.read a = Config.font.getD a 0) ∧ (∀ a, 80 ≤ a → a < 0x200 → t.mem.read a = 0) ∧
    (∀ j, j < image.length → t.mem.read (0x200 + j) = image.getD j 0) ∧
    (∀ a, 0x200 + image.length ≤ a → t.mem.read a = 0) ∧
    t.pc = 0x200 ∧ t.sp.val = 0 ∧ t.rs = .running ∧
    (∀ r, t.reg r = 0) ∧ t.i = 0 ∧ (∀ k : Fin 12, t.stack[k] = 0) ∧ t.dt = 0 ∧ t.st = 0 ∧
    (∀ x y, t.fb.pixel x y = false) ∧ (∀ k : Key, t.keys[k] = false) ∧ t.ak = none ∧ t.dirty = false ∧ t.hr = .none ∧
    t.ci = 0 ∧ t.uc = 0

/-- A load fails, and the core does not start, exactly when the image is longer than 3584 bytes or was not obtained
(70_reset_and_hazards.md R137, R138). -/
def Obligations.LoadFailsOnABadImage : Prop :=
  ∀ (s : State),
    (∀ image : List Byte, image.length > 3584 → perform (.load (some image)) s = .fault .programTooLarge) ∧
    perform (.load none) s = .fault .programUnreadable ∧
    (∀ image : List Byte, image.length ≤ 3584 → ∃ t, perform (.load (some image)) s = .next t)

/-! ## The whole machine -/

/-- Reset: PC at the entry point 0x200, the stack empty, Running, the font at 0x000 to 0x04F and zeros above (10_state.md R32;
70_reset_and_hazards.md R140). -/
def Obligations.ResetIsTheEntryPoint : Prop :=
  State.reset.pc = 0x200 ∧ State.reset.sp.val = 0 ∧ State.reset.rs = .running ∧ State.reset.hr = .none ∧
    (∀ a, State.reset.mem.read a = Config.font.getD a 0) ∧ Config.font.length = 80

/-- Reset meets the invariant. It rests on the reset values of HR and of the stack that the model takes from the spec's decision
D22 (log entry 1, DESIGN CHOICE); that HR stands beside RS is the spec's decision D8, the bound on PC its decision D21. -/
def Obligations.ResetMeetsTheInvariant : Prop := StateInv State.reset

/-- Every step keeps the invariant, from every state that meets it: memory stays canonical and inside 4096 bytes, HR is nonzero
exactly when Halted, PC never passes 0x10FE and no return address passes 0x1000 (10_state.md R17, R27). -/
def Obligations.StepKeepsTheInvariant : Prop :=
  ∀ (s t : State), StateInv s → step s = .next t → StateInv t

/-- Every operation of the core and the host (a step, a tick, a keypad write, a command, a dirty clear, a load) keeps the
invariant, from every state that meets it; so every state that any schedule of them reaches from reset meets it (60_exceptions.md
R129: a claim holds for every such schedule, the spec's decisions D25 and D26). That reset and a load meet it rests on the values
of HR and the stack from the spec's decision D22 (log entry 1); the invariant itself on its decisions D8 and D21. -/
def Obligations.EveryReachableStateMeetsTheInvariant : Prop :=
  (∀ (e : Event) (s t : State), StateInv s → perform e s = .next t → StateInv t) ∧ ∀ (s : State), Reachable s → StateInv s

/-- The run-state transitions are those of 60_exceptions.md R134: an operation that changes RS is a load, a host command or a step
raising Fatal, each between the states the table names. -/
def Obligations.RunStateChangesOnlyAsListed : Prop :=
  ∀ (e : Event) (s t : State), perform e s = .next t → t.rs ≠ s.rs →
    (∃ image, e = .load image ∧ t.rs = .running) ∨
    (s.rs = .running ∧ t.rs = .paused ∧ e = .command .pause) ∨
    (s.rs = .paused ∧ t.rs = .running ∧ e = .command .resume) ∨
    (s.rs = .running ∧ t.rs = .halted ∧ e = .step ∧ t.hr.isFatal = true) ∨
    (s.rs ≠ .halted ∧ t.rs = .halted ∧ e = .command .halt ∧ t.hr = .hostHalt)

/-- Halted is terminal: under any schedule without a load the core stays Halted with the same reason, and PC, the registers, the
stack and memory keep their values (10_state.md R26; 60_exceptions.md R121). -/
def Obligations.HaltedIsTerminal : Prop :=
  ∀ (es : List Event) (s t : State), s.rs = .halted → (∀ image, Event.load image ∉ es) → schedule es s = .next t →
    ChangesOnly [.dt, .st, .keys, .dirty] s t

/-- Parked at a self-jump: the step sets CI to the word and changes nothing else, and after it every step leaves every element
unchanged (60_exceptions.md R133 (b), the spec's decision D31). -/
def Obligations.ParkedIsAFixpoint : Prop :=
  ∀ (s : State), Parked s →
    ∃ t, step s = .next t ∧ t.ci = fetchWord s ∧ ChangesOnly [.ci] s t ∧ Parked t ∧ step t = .next t

/-- VF is written only by the flag-setting instructions and where it is a named destination (10_state.md R15); no register but a
named destination or VF ever is. -/
def Obligations.RegistersWrittenOnlyAsNamed : Prop :=
  ∀ (i : Instr) (s t : State) (r : Reg), exec i s = .next t → t.reg r ≠ s.reg r →
    r ∈ destinations i ∨ (r = vF ∧ setsFlag i = true)

/-- A byte of memory is written only by FX33 and FX55, and only inside the bytes they store (20_memory.md R46). -/
def Obligations.MemoryWrittenOnlyByTwoInstructions : Prop :=
  ∀ (i : Instr) (s t : State) (a : Nat), s.mem.wf → exec i s = .next t → t.mem.read a ≠ s.mem.read a →
    s.i.toNat ≤ a ∧ a ≤ 0xFFF ∧
      ((∃ x, i = .ldB x ∧ a < s.i.toNat + 3) ∨ (∃ x, i = .ldMemVx x ∧ a ≤ s.i.toNat + x.val))

/-- The stack is written only by CALL, SP only by CALL and RET, I only by ANNN, FX1E and FX29 (10_state.md R16, R18). -/
def Obligations.StackAndIndexWriters : Prop :=
  ∀ (i : Instr) (s t : State), exec i s = .next t →
    (t.stack ≠ s.stack → ∃ nnn, i = .call nnn) ∧
    (t.sp ≠ s.sp → i = .ret ∨ ∃ nnn, i = .call nnn) ∧
    (t.i ≠ s.i → (∃ nnn, i = .ldI nnn) ∨ (∃ x, i = .addI x) ∨ (∃ x, i = .ldF x))

/-- The framebuffer is written only by CLS and DRW, which also set DIRTY; DT, ST and AK only by FX15, FX18 and FX0A; K, CI and UC
by no instruction (10_state.md R20 to R25, R28, R29). -/
def Obligations.DisplayTimerAndKeyWriters : Prop :=
  ∀ (i : Instr) (s t : State), exec i s = .next t →
    (t.fb ≠ s.fb → t.dirty = true ∧ (i = .cls ∨ ∃ x y n, i = .drw x y n)) ∧
    (t.dirty ≠ s.dirty → t.dirty = true ∧ (i = .cls ∨ ∃ x y n, i = .drw x y n)) ∧
    (t.dt ≠ s.dt → ∃ x, i = .ldDtVx x) ∧ (t.st ≠ s.st → ∃ x, i = .ldStVx x) ∧ (t.ak ≠ s.ak → ∃ x, i = .ldVxK x) ∧
    t.keys = s.keys ∧ t.ci = s.ci ∧ t.uc = s.uc

/-- No instruction reads ST, DIRTY or a diagnostic, CI, UC or HR: from a state with any other values in these five, an instruction
answers a state that differs in these alone, and none of them flows into another. CI and UC keep the values put there, ST
unless the instruction is FX18, DIRTY unless it is CLS or a DRW that completes, HR unless it raises Fatal; where the
instruction writes one, the value written is the same whatever the five held (10_state.md R21, R25, R27 to R29;
60_exceptions.md R131; HR is the spec's decision D8, UC its decision D9, the fatal entry its decisions D6 and D7). -/
def Obligations.DiagnosticsAreReadByNoInstruction : Prop :=
  ∀ (i : Instr) (s t : State) (st : Byte) (dirty : Bool) (hr : HaltReason) (ci : Word) (uc : BitVec 32),
    exec i s = .next t →
    ∃ t', exec i { s with st := st, dirty := dirty, hr := hr, ci := ci, uc := uc } = .next t' ∧
      ChangesOnly [.st, .dirty, .hr, .ci, .uc] t t' ∧ t'.ci = ci ∧ t'.uc = uc ∧
      ((∀ x, i ≠ .ldStVx x) → t'.st = st) ∧ (∀ x, i = .ldStVx x → t'.st = t.st) ∧
      (i ≠ .cls → (∀ x y n, i ≠ .drw x y n) → t'.dirty = dirty) ∧
      (s.rs = .running → (i = .cls ∨ ∃ x y n, i = .drw x y n) → t'.dirty = (if t.rs = .running then true else dirty)) ∧
      (s.rs = .running → t'.hr = if t.rs = .running then hr else t.hr)

/-- Stack entries at or above SP are read by no instruction: from two states that differ in these alone, an instruction answers
states that differ in the stack alone, and below the new SP not even there (10_state.md R18). -/
def Obligations.StaleStackEntriesAreUnread : Prop :=
  ∀ (i : Instr) (s t : State) (stack : Vector Word 12), exec i s = .next t →
    (∀ k : Fin 12, k.val < s.sp.val → stack[k] = s.stack[k]) →
    ∃ t', exec i { s with stack := stack } = .next t' ∧ ChangesOnly [.stack] t t' ∧
      ∀ k : Fin 12, k.val < t.sp.val → t'.stack[k] = t.stack[k]
end

