-- ==== Sys2Proof/Laws/Decode.lean ====
section
/-!
SUPPORT. The bits of a concatenation and the fields of the three word formats, which both directions of the encoding rest on.
-/

namespace Sys2Proof

/-- The bits of two bytes put together. -/
theorem getLsbD_wordOfBytes (hi lo : Byte) (k : Nat) :
    (wordOfBytes hi lo).getLsbD k = if k < 8 then lo.getLsbD k else hi.getLsbD (k - 8) :=
  BitVec.getLsbD_append

/-- The bits of T NNN. -/
theorem getLsbD_wordNNN (t : BitVec 4) (nnn : BitVec 12) (k : Nat) :
    (wordNNN t nnn).getLsbD k = if k < 12 then nnn.getLsbD k else t.getLsbD (k - 12) :=
  BitVec.getLsbD_append

/-- The bits of T X NN. -/
theorem getLsbD_wordXNN (t : BitVec 4) (x : Reg) (nn : Byte) (k : Nat) :
    (wordXNN t x nn).getLsbD k =
      if k < 8 then nn.getLsbD k
      else if k - 8 < 4 then (BitVec.ofFin (w := 4) x).getLsbD (k - 8)
      else t.getLsbD (k - 8 - 4) := by
  refine (BitVec.getLsbD_append (x := t ++ BitVec.ofFin (w := 4) x) (y := nn)).trans ?_
  rw [BitVec.getLsbD_append]

/-- The bits of T X Y N. -/
theorem getLsbD_wordXYN (t : BitVec 4) (x y : Reg) (n : BitVec 4) (k : Nat) :
    (wordXYN t x y n).getLsbD k =
      if k < 4 then n.getLsbD k
      else if k - 4 < 4 then (BitVec.ofFin (w := 4) y).getLsbD (k - 4)
      else if k - 4 - 4 < 4 then (BitVec.ofFin (w := 4) x).getLsbD (k - 4 - 4)
      else t.getLsbD (k - 4 - 4 - 4) := by
  refine (BitVec.getLsbD_append (x := t ++ BitVec.ofFin (w := 4) x ++ BitVec.ofFin (w := 4) y) (y := n)).trans ?_
  rw [BitVec.getLsbD_append, BitVec.getLsbD_append]

/-- A register number read back from its four bits. -/
theorem toFin_eq_of_bits {b : BitVec 4} {x : Reg} (h : ∀ k, k < 4 → b.getLsbD k = (BitVec.ofFin (w := 4) x).getLsbD k) :
    b.toFin = x := by
  rw [BitVec.eq_of_getLsbD_eq h]

/-- The fields of T X NN. -/
theorem fieldsOf_wordXNN (t : BitVec 4) (x : Reg) (nn : Byte) :
    (fieldsOf (wordXNN t x nn)).t = t ∧ (fieldsOf (wordXNN t x nn)).x = x ∧ (fieldsOf (wordXNN t x nn)).nn = nn := by
  refine ⟨?_, toFin_eq_of_bits (b := (wordXNN t x nn).extractLsb' 8 4) fun k hk => ?_, ?_⟩
  · refine BitVec.eq_of_getLsbD_eq fun k hk => ?_
    simp only [fieldsOf, BitVec.getLsbD_extractLsb', getLsbD_wordXNN, hk, decide_true, Bool.true_and]
    rw [if_neg (by omega), if_neg (by omega)]; congr 1; omega
  · simp only [BitVec.getLsbD_extractLsb', getLsbD_wordXNN, hk, decide_true, Bool.true_and]
    rw [if_neg (by omega), if_pos (by omega)]; congr 1; omega
  · refine BitVec.eq_of_getLsbD_eq fun k hk => ?_
    simp [fieldsOf, getLsbD_wordXNN, hk]

/-- The fields of T X Y N. -/
theorem fieldsOf_wordXYN (t : BitVec 4) (x y : Reg) (n : BitVec 4) :
    (fieldsOf (wordXYN t x y n)).t = t ∧ (fieldsOf (wordXYN t x y n)).x = x ∧
      (fieldsOf (wordXYN t x y n)).y = y ∧ (fieldsOf (wordXYN t x y n)).n = n := by
  refine ⟨?_, toFin_eq_of_bits (b := (wordXYN t x y n).extractLsb' 8 4) fun k hk => ?_,
    toFin_eq_of_bits (b := (wordXYN t x y n).extractLsb' 4 4) fun k hk => ?_, ?_⟩
  · refine BitVec.eq_of_getLsbD_eq fun k hk => ?_
    simp only [fieldsOf, BitVec.getLsbD_extractLsb', getLsbD_wordXYN, hk, decide_true, Bool.true_and]
    rw [if_neg (by omega), if_neg (by omega), if_neg (by omega)]; congr 1; omega
  · simp only [BitVec.getLsbD_extractLsb', getLsbD_wordXYN, hk, decide_true, Bool.true_and]
    rw [if_neg (by omega), if_neg (by omega), if_pos (by omega)]; congr 1; omega
  · simp only [BitVec.getLsbD_extractLsb', getLsbD_wordXYN, hk, decide_true, Bool.true_and]
    rw [if_neg (by omega), if_pos (by omega)]; congr 1; omega
  · refine BitVec.eq_of_getLsbD_eq fun k hk => ?_
    simp [fieldsOf, getLsbD_wordXYN, hk]

/-- The fields of T NNN. -/
theorem fieldsOf_wordNNN (t : BitVec 4) (nnn : BitVec 12) :
    (fieldsOf (wordNNN t nnn)).t = t ∧ (fieldsOf (wordNNN t nnn)).nnn = nnn := by
  refine ⟨?_, ?_⟩ <;> refine BitVec.eq_of_getLsbD_eq fun k hk => ?_
  · simp only [fieldsOf, BitVec.getLsbD_extractLsb', getLsbD_wordNNN, hk, decide_true, Bool.true_and]
    rw [if_neg (by omega)]; congr 1; omega
  · simp [fieldsOf, getLsbD_wordNNN, hk]

/-- `zext_16` keeps the number. -/
theorem toNat_zext16 (nnn : BitVec 12) : (zext16 nnn).toNat = nnn.toNat := by
  have := nnn.isLt
  simp only [zext16, BitVec.toNat_setWidth]
  omega

/-- A big-endian word as a number: `hi8 * 256 + lo8`. -/
theorem toNat_wordOfBytes (hi lo : Byte) : (wordOfBytes hi lo).toNat = hi.toNat * 256 + lo.toNat := by
  show (hi ++ lo : BitVec (8 + 8)).toNat = _
  have := lo.isLt
  rw [BitVec.toNat_append, Nat.shiftLeft_eq, ← Nat.mul_comm, ← Nat.two_pow_add_eq_or_of_lt (by simpa using this)]

/-- The top nibble as a number. -/
theorem toNat_fieldsOf_t (op : Word) : (fieldsOf op).t.toNat = op.toNat / 0x1000 := by
  have := op.isLt
  simp only [fieldsOf, BitVec.extractLsb'_toNat, Nat.shiftRight_eq_div_pow]
  omega

/-- The low nibble as a number. -/
theorem toNat_fieldsOf_n (op : Word) : (fieldsOf op).n.toNat = op.toNat % 0x10 := by
  simp [fieldsOf, BitVec.extractLsb'_toNat]

/-- The low byte as a number. -/
theorem toNat_fieldsOf_nn (op : Word) : (fieldsOf op).nn.toNat = op.toNat % 0x100 := by
  simp [fieldsOf, BitVec.extractLsb'_toNat]

/-- The sixteen values of a nibble, the case split of the dispatch. -/
theorem nibble_cases (t : BitVec 4) :
    t = 0 ∨ t = 1 ∨ t = 2 ∨ t = 3 ∨ t = 4 ∨ t = 5 ∨ t = 6 ∨ t = 7 ∨ t = 8 ∨ t = 9 ∨ t = 10 ∨ t = 11 ∨ t = 12 ∨ t = 13 ∨
      t = 14 ∨ t = 15 := by
  decide +revert

/-- A word is its top nibble and the rest. -/
theorem wordNNN_fields (op : Word) : wordNNN (fieldsOf op).t (fieldsOf op).nnn = op := by
  refine BitVec.eq_of_getLsbD_eq fun k hk => ?_
  simp only [getLsbD_wordNNN, fieldsOf, BitVec.getLsbD_extractLsb']
  by_cases h : k < 12
  · simp [h]
  · simp [h, show k - 12 < 4 by omega, show 12 + (k - 12) = k by omega]

/-- A word is T, X and NN. -/
theorem wordXNN_fields (op : Word) : wordXNN (fieldsOf op).t (fieldsOf op).x (fieldsOf op).nn = op := by
  refine BitVec.eq_of_getLsbD_eq fun k hk => ?_
  simp only [getLsbD_wordXNN, fieldsOf, BitVec.ofFin_toFin, BitVec.getLsbD_extractLsb']
  by_cases h : k < 8
  · simp [h]
  · by_cases h' : k - 8 < 4
    · simp [h, h', show 8 + (k - 8) = k by omega]
    · simp [h, h', show k - 8 - 4 < 4 by omega, show 12 + (k - 8 - 4) = k by omega]

/-- A word is T, X, Y and N. -/
theorem wordXYN_fields (op : Word) : wordXYN (fieldsOf op).t (fieldsOf op).x (fieldsOf op).y (fieldsOf op).n = op := by
  refine BitVec.eq_of_getLsbD_eq fun k hk => ?_
  simp only [getLsbD_wordXYN, fieldsOf, BitVec.ofFin_toFin, BitVec.getLsbD_extractLsb']
  by_cases h : k < 4
  · simp [h]
  · by_cases h' : k - 4 < 4
    · simp [h, h', show 4 + (k - 4) = k by omega]
    · by_cases h'' : k - 4 - 4 < 4
      · simp [h, h', h'', show 8 + (k - 4 - 4) = k by omega]
      · simp [h, h', h'', show k - 4 - 4 - 4 < 4 by omega, show 12 + (k - 4 - 4 - 4) = k by omega]

/-- The two bytes of a word, put together again. -/
theorem wordOfBytes_high_low (op : Word) : wordOfBytes (highByte op) (lowByte op) = op := by
  refine BitVec.eq_of_getLsbD_eq fun k hk => ?_
  simp only [getLsbD_wordOfBytes, highByte, lowByte, BitVec.getLsbD_extractLsb']
  by_cases h : k < 8
  · simp [h]
  · simp [h, show k - 8 < 8 by omega, show 8 + (k - 8) = k by omega]

end Sys2Proof
end

