-- ==== Sys2Proof/Laws/Display.lean ====
section
/-!
SUPPORT. What one pixel, one sprite row and all the rows do to a canvas: the cells the bits land on and the collision.
-/

namespace Sys2Proof.Machine

@[simp] theorem Framebuffer.pixel_clear (x y : Nat) : Framebuffer.pixel Framebuffer.clear x y = false := by
  unfold Framebuffer.pixel Framebuffer.clear
  split <;> simp

/-- Outside the cells every pixel reads off. -/
theorem Framebuffer.pixel_outside (f : Framebuffer) {x y : Nat} (h : ¬ (y < Config.fbH ∧ x < Config.fbW)) :
    f.pixel x y = false := by
  simp only [Framebuffer.pixel, h, dite_false]

/-- Two framebuffers with the same cells are equal. -/
theorem Framebuffer.ext_pixel {f g : Framebuffer} (h : ∀ x y, x < Config.fbW → y < Config.fbH → f.pixel x y = g.pixel x y) :
    f = g := by
  refine Vector.ext fun y hy => Vector.ext fun x hx => ?_
  have := h x y hx hy
  simpa only [Framebuffer.pixel, hy, hx, and_self, dite_true] using this

/-- A toggle changes its own cell alone. -/
theorem Framebuffer.pixel_toggle (f : Framebuffer) (x y cx cy : Nat) :
    (f.toggle x y).pixel cx cy =
      (f.pixel cx cy ^^ decide (cx = x ∧ cy = y ∧ x < Config.fbW ∧ y < Config.fbH)) := by
  unfold Framebuffer.toggle
  by_cases h : y < Config.fbH ∧ x < Config.fbW
  · by_cases hc : cy < Config.fbH ∧ cx < Config.fbW
    · simp only [Framebuffer.pixel, h, hc, and_self, dite_true, Vector.getElem_set]
      by_cases hy : y = cy
      · subst hy
        by_cases hx : x = cx
        · subst hx
          simp
        · simp [hx, Ne.symm hx]
      · simp [hy, Ne.symm hy]
    · rw [Framebuffer.pixel_outside _ hc, Framebuffer.pixel_outside _ hc]
      have : ¬ (cx = x ∧ cy = y ∧ x < Config.fbW ∧ y < Config.fbH) := by
        rintro ⟨rfl, rfl, hx, hy⟩
        exact hc ⟨hy, hx⟩
      simp only [this, decide_false, Bool.false_xor]
  · have : ¬ (cx = x ∧ cy = y ∧ x < Config.fbW ∧ y < Config.fbH) := fun ⟨_, _, hx, hy⟩ => h ⟨hy, hx⟩
    simp only [h, dite_false, this, decide_false, Bool.xor_false]

/-- The cells after the columns `k, k+1, ..., k+n-1` of a sprite row: each set bit inside the screen toggles its cell. -/
theorem drawCols_pixel {x0 y : Nat} (hy : y < Config.fbH) (b : Byte) (k n : Nat) (c : Canvas) (cx cy : Nat) :
    (drawCols x0 y b (List.range' k n) c).fb.pixel cx cy =
      (c.fb.pixel cx cy ^^
        (decide (cy = y ∧ x0 + k ≤ cx ∧ cx < x0 + k + n ∧ cx < Config.fbW) && b.getLsbD (7 - (cx - x0)))) := by
  induction n generalizing k c with
  | zero =>
    have : ¬ (cy = y ∧ x0 + k ≤ cx ∧ cx < x0 + k + 0 ∧ cx < Config.fbW) := by omega
    simp only [List.range'_zero, drawCols, this, decide_false, Bool.false_and, Bool.xor_false]
  | succ n ih =>
    rw [List.range'_succ]
    simp only [drawCols]
    by_cases hedge : x0 + k ≥ Config.fbW
    · have : ¬ (cy = y ∧ x0 + k ≤ cx ∧ cx < x0 + k + (n + 1) ∧ cx < Config.fbW) := by omega
      simp only [hedge, if_true, this, decide_false, Bool.false_and, Bool.xor_false]
    · rw [if_neg hedge, ih]
      have hp : (drawPixel (x0 + k) y (b.getLsbD (7 - k)) c).fb.pixel cx cy =
          (c.fb.pixel cx cy ^^ (decide (cx = x0 + k ∧ cy = y) && b.getLsbD (7 - k))) := by
        cases hb : b.getLsbD (7 - k)
        · simp [drawPixel]
        · have : (cx = x0 + k ∧ cy = y ∧ x0 + k < Config.fbW ∧ y < Config.fbH) ↔ (cx = x0 + k ∧ cy = y) := by omega
          simp only [drawPixel, if_true, Framebuffer.pixel_toggle, this, Bool.and_true]
      rw [hp, Bool.xor_assoc]
      congr 1
      by_cases hx : cx = x0 + k ∧ cy = y
      · obtain ⟨rfl, rfl⟩ := hx
        have h1 : ¬ (cy = cy ∧ x0 + (k + 1) ≤ x0 + k ∧ x0 + k < x0 + (k + 1) + n ∧ x0 + k < Config.fbW) := by omega
        have h2 : cy = cy ∧ x0 + k ≤ x0 + k ∧ x0 + k < x0 + k + (n + 1) ∧ x0 + k < Config.fbW := by omega
        rw [decide_eq_false h1, decide_eq_true h2]
        simp
      · have : (cy = y ∧ x0 + (k + 1) ≤ cx ∧ cx < x0 + (k + 1) + n ∧ cx < Config.fbW) ↔
            (cy = y ∧ x0 + k ≤ cx ∧ cx < x0 + k + (n + 1) ∧ cx < Config.fbW) := by omega
        simp only [hx, this, decide_false, Bool.false_and, Bool.false_xor]

/-- The collision after the columns: sticky, and set by a set bit on a cell that was on when the row began. -/
theorem drawCols_hit {x0 y : Nat} (b : Byte) (k n : Nat) (c : Canvas) :
    (drawCols x0 y b (List.range' k n) c).hit = true ↔
      c.hit = true ∨ ∃ cx, x0 + k ≤ cx ∧ cx < x0 + k + n ∧ cx < Config.fbW ∧
        b.getLsbD (7 - (cx - x0)) = true ∧ c.fb.pixel cx y = true := by
  induction n generalizing k c with
  | zero =>
    simp only [List.range'_zero, drawCols]
    refine ⟨Or.inl, fun h => h.elim id fun ⟨cx, _, _, _⟩ => by omega⟩
  | succ n ih =>
    rw [List.range'_succ]
    simp only [drawCols]
    by_cases hedge : x0 + k ≥ Config.fbW
    · rw [if_pos hedge]
      refine ⟨Or.inl, fun h => h.elim id fun ⟨cx, _, _, _⟩ => by omega⟩
    · rw [if_neg hedge, ih]
      have hpix : ∀ cx, x0 + (k + 1) ≤ cx →
          (drawPixel (x0 + k) y (b.getLsbD (7 - k)) c).fb.pixel cx y = c.fb.pixel cx y := by
        intro cx hcx
        cases b.getLsbD (7 - k)
        · rfl
        · have : ¬ (cx = x0 + k ∧ y = y ∧ x0 + k < Config.fbW ∧ y < Config.fbH) := by omega
          simp only [drawPixel, if_true]
          rw [Framebuffer.pixel_toggle, decide_eq_false this, Bool.xor_false]
      have hhit : (drawPixel (x0 + k) y (b.getLsbD (7 - k)) c).hit = true ↔
          c.hit = true ∨ (b.getLsbD (7 - k) = true ∧ c.fb.pixel (x0 + k) y = true) := by
        cases b.getLsbD (7 - k) <;> simp [drawPixel]
      rw [hhit]
      constructor
      · rintro ((h | ⟨hb, hp⟩) | ⟨cx, h1, h2, h3, h4, h5⟩)
        · exact .inl h
        · exact .inr ⟨x0 + k, by omega, by omega, by omega, by rwa [Nat.add_sub_cancel_left], hp⟩
        · exact .inr ⟨cx, by omega, by omega, h3, h4, hpix cx h1 ▸ h5⟩
      · rintro (h | ⟨cx, h1, h2, h3, h4, h5⟩)
        · exact .inl (.inl h)
        · by_cases hx : cx = x0 + k
          · subst hx
            rw [Nat.add_sub_cancel_left] at h4
            exact .inl (.inr ⟨h4, h5⟩)
          · exact .inr ⟨cx, by omega, by omega, h3, h4, (hpix cx (by omega)).trans h5⟩

/-- The cells after one sprite row. -/
theorem drawRow_pixel {x0 y : Nat} (hy : y < Config.fbH) (b : Byte) (c : Canvas) (cx cy : Nat) :
    (drawRow x0 y b c).fb.pixel cx cy =
      (c.fb.pixel cx cy ^^
        (decide (cy = y ∧ x0 ≤ cx ∧ cx < x0 + 8 ∧ cx < Config.fbW) && b.getLsbD (7 - (cx - x0)))) :=
  drawCols_pixel hy b 0 8 c cx cy

/-- The collision after one sprite row. -/
theorem drawRow_hit {x0 y : Nat} (b : Byte) (c : Canvas) :
    (drawRow x0 y b c).hit = true ↔
      c.hit = true ∨ ∃ cx, x0 ≤ cx ∧ cx < x0 + 8 ∧ cx < Config.fbW ∧
        b.getLsbD (7 - (cx - x0)) = true ∧ c.fb.pixel cx y = true :=
  drawCols_hit b 0 8 c

/-- The cells after all the rows of a sprite that fits above the bottom edge. -/
theorem drawRows_pixel {x0 y : Nat} (bs : List Byte) (hy : y + bs.length ≤ Config.fbH) (c : Canvas) (cx cy : Nat) :
    (drawRows x0 y bs c).fb.pixel cx cy =
      (c.fb.pixel cx cy ^^
        (decide (x0 ≤ cx ∧ cx < x0 + 8 ∧ cx < Config.fbW ∧ y ≤ cy ∧ cy < y + bs.length) &&
          (bs.getD (cy - y) 0).getLsbD (7 - (cx - x0)))) := by
  induction bs generalizing y c with
  | nil => simp [drawRows]
  | cons b bs ih =>
    simp only [List.length_cons] at hy
    rw [drawRows, ih (by omega), drawRow_pixel (by omega), Bool.xor_assoc]
    congr 1
    by_cases h : cy = y
    · subst h
      simp
    · by_cases h2 : y + 1 ≤ cy
      · rw [decide_eq_false (by omega), show cy - y = (cy - (y + 1)) + 1 by omega]
        simp only [Bool.false_and, Bool.false_xor, List.getD_cons_succ, List.length_cons]
        congr 2
        exact propext (by omega)
      · rw [decide_eq_false (by omega), decide_eq_false (by omega), decide_eq_false (by omega)]
        rfl

/-- The collision after all the rows: a set bit fell on a cell that was on before the draw. -/
theorem drawRows_hit {x0 y : Nat} (bs : List Byte) (hy : y + bs.length ≤ Config.fbH) (c : Canvas) :
    (drawRows x0 y bs c).hit = true ↔
      c.hit = true ∨ ∃ cx cy, x0 ≤ cx ∧ cx < x0 + 8 ∧ cx < Config.fbW ∧ y ≤ cy ∧ cy < y + bs.length ∧
        (bs.getD (cy - y) 0).getLsbD (7 - (cx - x0)) = true ∧ c.fb.pixel cx cy = true := by
  induction bs generalizing y c with
  | nil =>
    simp only [drawRows, List.length_nil]
    exact ⟨Or.inl, fun h => h.elim id fun ⟨_, _, _, _, _, _, _, _⟩ => by omega⟩
  | cons b bs ih =>
    simp only [List.length_cons] at hy
    rw [drawRows, ih (by omega), drawRow_hit]
    constructor
    · rintro ((h | ⟨cx, h1, h2, h3, h4, h5⟩) | ⟨cx, cy, h1, h2, h3, h4, h5, h6, h7⟩)
      · exact .inl h
      · exact .inr ⟨cx, y, h1, h2, h3, le_refl y, by simp, by simpa using h4, h5⟩
      · refine .inr ⟨cx, cy, h1, h2, h3, by omega, by simp only [List.length_cons]; omega, ?_, ?_⟩
        · rw [show cy - y = (cy - (y + 1)) + 1 by omega]
          exact h6
        · rw [drawRow_pixel (by omega), decide_eq_false (by omega)] at h7
          simpa using h7
    · rintro (h | ⟨cx, cy, h1, h2, h3, h4, h5, h6, h7⟩)
      · exact .inl (.inl h)
      · by_cases h : cy = y
        · subst h
          exact .inl (.inr ⟨cx, h1, h2, h3, by simpa using h6, h7⟩)
        · simp only [List.length_cons] at h5
          refine .inr ⟨cx, cy, h1, h2, h3, by omega, by omega, ?_, ?_⟩
          · rw [show cy - y = (cy - (y + 1)) + 1 by omega] at h6
            exact h6
          · rw [drawRow_pixel (by omega), decide_eq_false (by omega)]
            simpa using h7

end Sys2Proof.Machine
end

