-- ==== Sys2Proof/Laws/Memory.lean ====
section
/-!
SUPPORT. What memory operations do: a read after a write, the bytes of a multi-byte store, and that every operation keeps the
canonical form.
-/

namespace Sys2Proof.Machine

@[simp] theorem Memory.read_nil (a : Nat) : Memory.read [] a = Memory.unlisted a := rfl

/-- An unlisted address reads as the byte of the font table there, zero past its end. -/
theorem Memory.unlisted_eq (a : Nat) : Memory.unlisted a = Config.font.getD a 0 := by
  have : Config.font.length = Config.fontLen := by decide
  unfold Memory.unlisted
  split
  · simp [Config.fontBase]
  · rw [List.getD_eq_default]
    simp_all [Config.fontBase]

/-- Above the font an unlisted address reads as zero. -/
theorem Memory.unlisted_above_font {a : Nat} (h : 80 ≤ a) : Memory.unlisted a = 0 :=
  if_neg fun hf => by simp [Config.fontBase, Config.fontLen] at hf; omega

/-- The range check as 20_memory.md R45 words it: no address of the `n` is above 0xFFF. -/
theorem inRange_iff {a n : Nat} : InRange a n ↔ n = 0 ∨ a + (n - 1) ≤ 0xFFF := by
  simp only [InRange, Config.memSize]

/-- An address below every listed one reads as unlisted. -/
theorem Memory.read_of_forall_lt {m : Memory} {a : Nat} (h : ∀ c ∈ m, a < c.1) : m.read a = Memory.unlisted a := by
  induction m with
  | nil => rfl
  | cons c m ih =>
    have hc := h c (by simp)
    simp only [Memory.read]
    rw [if_neg (by omega), ih fun d hd => h d (by simp [hd])]

/-- The read of any address after a write, in memory whose addresses rise. -/
theorem Memory.read_write {m : Memory} (h : m.Pairwise fun c d => c.1 < d.1) (a : Nat) (b : Byte) (k : Nat) :
    (m.write a b).read k = if k = a then b else m.read k := by
  induction m with
  | nil =>
    simp only [Memory.write]
    simp only [Memory.read]
    grind [Memory.read]
  | cons c m ih =>
    obtain ⟨hc, hm⟩ := List.pairwise_cons.mp h
    have ih := ih hm
    simp only [Memory.write]
    by_cases h1 : a < c.1
    · have hlow : Memory.read (c :: m) a = Memory.unlisted a :=
        Memory.read_of_forall_lt (by
          intro d hd
          rcases List.mem_cons.mp hd with rfl | hd
          · exact h1
          · exact Nat.lt_trans h1 (hc d hd))
      simp only [h1, if_true]
      split
      · split <;> simp_all
      · simp only [Memory.read]; grind
    · by_cases h2 : a = c.1
      · subst h2
        have hlow : Memory.read m c.1 = Memory.unlisted c.1 := Memory.read_of_forall_lt hc
        simp only [h1, if_false, if_true]
        split <;> simp only [Memory.read] <;> grind
      · simp only [h1, h2, if_false, Memory.read, ih]; grind

/-- Every cell after a write is the written one or an old one. -/
theorem Memory.mem_write {m : Memory} {a : Nat} {b : Byte} {c : Host.Cell} (h : c ∈ m.write a b) :
    (c = (a, b) ∧ b ≠ Memory.unlisted a) ∨ c ∈ m := by
  induction m with
  | nil => simp only [Memory.write] at h; grind
  | cons d m ih => simp only [Memory.write] at h; grind

theorem Memory.write_pairwise {m : Memory} (h : m.Pairwise fun c d => c.1 < d.1) (a : Nat) (b : Byte) :
    (m.write a b).Pairwise fun c d => c.1 < d.1 := by
  induction m with
  | nil => simp only [Memory.write]; split <;> simp
  | cons c m ih =>
    obtain ⟨hc, hm⟩ := List.pairwise_cons.mp h
    simp only [Memory.write]
    split
    · split
      · exact h
      · refine List.pairwise_cons.mpr ⟨fun d hd => ?_, h⟩
        rcases List.mem_cons.mp hd with rfl | hd
        · assumption
        · exact Nat.lt_trans ‹_› (hc d hd)
    · split
      · split
        · exact hm
        · exact List.pairwise_cons.mpr ⟨fun d hd => by have := hc d hd; simp_all, hm⟩
      · refine List.pairwise_cons.mpr ⟨fun d hd => ?_, ih hm⟩
        rcases Memory.mem_write hd with ⟨rfl, -⟩ | hd
        · simp only; omega
        · exact hc d hd

/-- A write inside the 4096 bytes keeps the canonical form. -/
theorem Memory.write_wf {m : Memory} (h : m.wf) {a : Nat} (ha : a < Config.memSize) (b : Byte) : (m.write a b).wf := by
  refine ⟨Memory.write_pairwise h.1 a b, fun c hc => ?_⟩
  rcases Memory.mem_write hc with ⟨rfl, hb⟩ | hc
  · exact ⟨ha, hb⟩
  · exact h.2 c hc

theorem Memory.writeBytes_pairwise {m : Memory} (h : m.Pairwise fun c d => c.1 < d.1) (a : Nat) (bs : List Byte) :
    (m.writeBytes a bs).Pairwise fun c d => c.1 < d.1 := by
  induction bs generalizing m a with
  | nil => exact h
  | cons b bs ih => exact ih (Memory.write_pairwise h a b) (a + 1)

/-- A store inside the 4096 bytes keeps the canonical form. -/
theorem Memory.writeBytes_wf {m : Memory} (h : m.wf) {a : Nat} {bs : List Byte} (ha : InRange a bs.length) :
    (m.writeBytes a bs).wf := by
  induction bs generalizing m a with
  | nil => exact h
  | cons b bs ih =>
    simp only [InRange, List.length_cons, Config.memSize] at ha
    refine ih (Memory.write_wf h ?_ b) ?_
    · simp only [Config.memSize]; omega
    · simp only [InRange, Config.memSize]; omega

/-- The read of any address after a store of several bytes: the stored byte inside it, the old byte outside. -/
theorem Memory.read_writeBytes {m : Memory} (h : m.Pairwise fun c d => c.1 < d.1) (a : Nat) (bs : List Byte) (k : Nat) :
    (m.writeBytes a bs).read k = if a ≤ k ∧ k < a + bs.length then bs.getD (k - a) 0 else m.read k := by
  induction bs generalizing m a with
  | nil => simp only [Memory.writeBytes, List.length_nil]; rw [if_neg (by omega)]
  | cons b bs ih =>
    simp only [Memory.writeBytes, ih (Memory.write_pairwise h a b), Memory.read_write h, List.length_cons]
    by_cases hk : k = a
    · subst hk
      simp
    · by_cases hin : a + 1 ≤ k ∧ k < a + 1 + bs.length
      · rw [if_pos hin, if_pos (by omega), show k - a = (k - (a + 1)) + 1 by omega]
        rfl
      · rw [if_neg hin, if_neg hk, if_neg (by omega)]

@[simp] theorem Memory.length_readBytes (m : Memory) (a n : Nat) : (m.readBytes a n).length = n := by
  induction n generalizing a with
  | zero => rfl
  | succ n ih => simp [Memory.readBytes, ih]

/-- The k-th byte of a multi-byte read. -/
theorem Memory.getElem_readBytes (m : Memory) (a n k : Nat) (hk : k < (m.readBytes a n).length) :
    (m.readBytes a n)[k] = m.read (a + k) := by
  induction n generalizing a k with
  | zero => simp [Memory.readBytes] at hk
  | succ n ih =>
    cases k with
    | zero => rfl
    | succ k =>
      simp only [Memory.readBytes, List.getElem_cons_succ]
      rw [ih (a + 1) k (by simpa [Memory.readBytes] using hk)]
      congr 1
      omega

/-- Memory with nothing listed is in canonical form. -/
theorem Memory.wf_nil : Memory.wf [] := ⟨List.Pairwise.nil, fun _ h => by simp at h⟩

end Sys2Proof.Machine
end

