-- ==== Sys2Proof/Laws/State.lean ====
section
/-!
SUPPORT. One lemma per field per named update of the state, true by definition, so that no proof unfolds a record update; and
the read of a register after each update.
-/

namespace Sys2Proof.Machine

variable (s : State)

/-! ## setReg -/

@[simp] theorem State.setReg_v (r : Reg) (b : Byte) : (s.setReg r b).v = s.v.set r b := rfl
@[simp] theorem State.setReg_i (r : Reg) (b : Byte) : (s.setReg r b).i = s.i := rfl
@[simp] theorem State.setReg_pc (r : Reg) (b : Byte) : (s.setReg r b).pc = s.pc := rfl
@[simp] theorem State.setReg_stack (r : Reg) (b : Byte) : (s.setReg r b).stack = s.stack := rfl
@[simp] theorem State.setReg_sp (r : Reg) (b : Byte) : (s.setReg r b).sp = s.sp := rfl
@[simp] theorem State.setReg_dt (r : Reg) (b : Byte) : (s.setReg r b).dt = s.dt := rfl
@[simp] theorem State.setReg_st (r : Reg) (b : Byte) : (s.setReg r b).st = s.st := rfl
@[simp] theorem State.setReg_fb (r : Reg) (b : Byte) : (s.setReg r b).fb = s.fb := rfl
@[simp] theorem State.setReg_keys (r : Reg) (b : Byte) : (s.setReg r b).keys = s.keys := rfl
@[simp] theorem State.setReg_ak (r : Reg) (b : Byte) : (s.setReg r b).ak = s.ak := rfl
@[simp] theorem State.setReg_dirty (r : Reg) (b : Byte) : (s.setReg r b).dirty = s.dirty := rfl
@[simp] theorem State.setReg_rs (r : Reg) (b : Byte) : (s.setReg r b).rs = s.rs := rfl
@[simp] theorem State.setReg_hr (r : Reg) (b : Byte) : (s.setReg r b).hr = s.hr := rfl
@[simp] theorem State.setReg_ci (r : Reg) (b : Byte) : (s.setReg r b).ci = s.ci := rfl
@[simp] theorem State.setReg_uc (r : Reg) (b : Byte) : (s.setReg r b).uc = s.uc := rfl
@[simp] theorem State.setReg_mem (r : Reg) (b : Byte) : (s.setReg r b).mem = s.mem := rfl
@[simp] theorem State.setReg_draws (r : Reg) (b : Byte) : (s.setReg r b).draws = s.draws := rfl
@[simp] theorem State.setReg_held (r : Reg) (b : Byte) (q : Key) : (s.setReg r b).held q = s.held q := rfl

/-- A register after a write of a register. -/
theorem State.setReg_reg (r : Reg) (b : Byte) (q : Reg) : (s.setReg r b).reg q = if r = q then b else s.reg q := by
  simp [State.reg, State.setReg, Vector.getElem_set, Fin.ext_iff]

@[simp] theorem State.setReg_reg_self (r : Reg) (b : Byte) : (s.setReg r b).reg r = b := by
  simp [State.setReg_reg]

theorem State.setReg_reg_ne {r q : Reg} {b : Byte} (h : q ≠ r) : (s.setReg r b).reg q = s.reg q := by
  simp [State.setReg_reg, Ne.symm h]

/-! ## setPc -/

@[simp] theorem State.setPc_v (a : Word) : (s.setPc a).v = s.v := rfl
@[simp] theorem State.setPc_i (a : Word) : (s.setPc a).i = s.i := rfl
@[simp] theorem State.setPc_pc (a : Word) : (s.setPc a).pc = a := rfl
@[simp] theorem State.setPc_stack (a : Word) : (s.setPc a).stack = s.stack := rfl
@[simp] theorem State.setPc_sp (a : Word) : (s.setPc a).sp = s.sp := rfl
@[simp] theorem State.setPc_dt (a : Word) : (s.setPc a).dt = s.dt := rfl
@[simp] theorem State.setPc_st (a : Word) : (s.setPc a).st = s.st := rfl
@[simp] theorem State.setPc_fb (a : Word) : (s.setPc a).fb = s.fb := rfl
@[simp] theorem State.setPc_keys (a : Word) : (s.setPc a).keys = s.keys := rfl
@[simp] theorem State.setPc_ak (a : Word) : (s.setPc a).ak = s.ak := rfl
@[simp] theorem State.setPc_dirty (a : Word) : (s.setPc a).dirty = s.dirty := rfl
@[simp] theorem State.setPc_rs (a : Word) : (s.setPc a).rs = s.rs := rfl
@[simp] theorem State.setPc_hr (a : Word) : (s.setPc a).hr = s.hr := rfl
@[simp] theorem State.setPc_ci (a : Word) : (s.setPc a).ci = s.ci := rfl
@[simp] theorem State.setPc_uc (a : Word) : (s.setPc a).uc = s.uc := rfl
@[simp] theorem State.setPc_mem (a : Word) : (s.setPc a).mem = s.mem := rfl
@[simp] theorem State.setPc_draws (a : Word) : (s.setPc a).draws = s.draws := rfl
@[simp] theorem State.setPc_reg (a : Word) (q : Reg) : (s.setPc a).reg q = s.reg q := rfl
@[simp] theorem State.setPc_held (a : Word) (q : Key) : (s.setPc a).held q = s.held q := rfl

/-! ## setIndex -/

@[simp] theorem State.setIndex_v (a : Word) : (s.setIndex a).v = s.v := rfl
@[simp] theorem State.setIndex_i (a : Word) : (s.setIndex a).i = a := rfl
@[simp] theorem State.setIndex_pc (a : Word) : (s.setIndex a).pc = s.pc := rfl
@[simp] theorem State.setIndex_stack (a : Word) : (s.setIndex a).stack = s.stack := rfl
@[simp] theorem State.setIndex_sp (a : Word) : (s.setIndex a).sp = s.sp := rfl
@[simp] theorem State.setIndex_dt (a : Word) : (s.setIndex a).dt = s.dt := rfl
@[simp] theorem State.setIndex_st (a : Word) : (s.setIndex a).st = s.st := rfl
@[simp] theorem State.setIndex_fb (a : Word) : (s.setIndex a).fb = s.fb := rfl
@[simp] theorem State.setIndex_keys (a : Word) : (s.setIndex a).keys = s.keys := rfl
@[simp] theorem State.setIndex_ak (a : Word) : (s.setIndex a).ak = s.ak := rfl
@[simp] theorem State.setIndex_dirty (a : Word) : (s.setIndex a).dirty = s.dirty := rfl
@[simp] theorem State.setIndex_rs (a : Word) : (s.setIndex a).rs = s.rs := rfl
@[simp] theorem State.setIndex_hr (a : Word) : (s.setIndex a).hr = s.hr := rfl
@[simp] theorem State.setIndex_ci (a : Word) : (s.setIndex a).ci = s.ci := rfl
@[simp] theorem State.setIndex_uc (a : Word) : (s.setIndex a).uc = s.uc := rfl
@[simp] theorem State.setIndex_mem (a : Word) : (s.setIndex a).mem = s.mem := rfl
@[simp] theorem State.setIndex_draws (a : Word) : (s.setIndex a).draws = s.draws := rfl
@[simp] theorem State.setIndex_reg (a : Word) (q : Reg) : (s.setIndex a).reg q = s.reg q := rfl
@[simp] theorem State.setIndex_held (a : Word) (q : Key) : (s.setIndex a).held q = s.held q := rfl

/-! ## setMem -/

@[simp] theorem State.setMem_v (m : Memory) : (s.setMem m).v = s.v := rfl
@[simp] theorem State.setMem_i (m : Memory) : (s.setMem m).i = s.i := rfl
@[simp] theorem State.setMem_pc (m : Memory) : (s.setMem m).pc = s.pc := rfl
@[simp] theorem State.setMem_stack (m : Memory) : (s.setMem m).stack = s.stack := rfl
@[simp] theorem State.setMem_sp (m : Memory) : (s.setMem m).sp = s.sp := rfl
@[simp] theorem State.setMem_dt (m : Memory) : (s.setMem m).dt = s.dt := rfl
@[simp] theorem State.setMem_st (m : Memory) : (s.setMem m).st = s.st := rfl
@[simp] theorem State.setMem_fb (m : Memory) : (s.setMem m).fb = s.fb := rfl
@[simp] theorem State.setMem_keys (m : Memory) : (s.setMem m).keys = s.keys := rfl
@[simp] theorem State.setMem_ak (m : Memory) : (s.setMem m).ak = s.ak := rfl
@[simp] theorem State.setMem_dirty (m : Memory) : (s.setMem m).dirty = s.dirty := rfl
@[simp] theorem State.setMem_rs (m : Memory) : (s.setMem m).rs = s.rs := rfl
@[simp] theorem State.setMem_hr (m : Memory) : (s.setMem m).hr = s.hr := rfl
@[simp] theorem State.setMem_ci (m : Memory) : (s.setMem m).ci = s.ci := rfl
@[simp] theorem State.setMem_uc (m : Memory) : (s.setMem m).uc = s.uc := rfl
@[simp] theorem State.setMem_mem (m : Memory) : (s.setMem m).mem = m := rfl
@[simp] theorem State.setMem_draws (m : Memory) : (s.setMem m).draws = s.draws := rfl
@[simp] theorem State.setMem_reg (m : Memory) (q : Reg) : (s.setMem m).reg q = s.reg q := rfl
@[simp] theorem State.setMem_held (m : Memory) (q : Key) : (s.setMem m).held q = s.held q := rfl

/-! ## setDt -/

@[simp] theorem State.setDt_v (b : Byte) : (s.setDt b).v = s.v := rfl
@[simp] theorem State.setDt_i (b : Byte) : (s.setDt b).i = s.i := rfl
@[simp] theorem State.setDt_pc (b : Byte) : (s.setDt b).pc = s.pc := rfl
@[simp] theorem State.setDt_stack (b : Byte) : (s.setDt b).stack = s.stack := rfl
@[simp] theorem State.setDt_sp (b : Byte) : (s.setDt b).sp = s.sp := rfl
@[simp] theorem State.setDt_dt (b : Byte) : (s.setDt b).dt = b := rfl
@[simp] theorem State.setDt_st (b : Byte) : (s.setDt b).st = s.st := rfl
@[simp] theorem State.setDt_fb (b : Byte) : (s.setDt b).fb = s.fb := rfl
@[simp] theorem State.setDt_keys (b : Byte) : (s.setDt b).keys = s.keys := rfl
@[simp] theorem State.setDt_ak (b : Byte) : (s.setDt b).ak = s.ak := rfl
@[simp] theorem State.setDt_dirty (b : Byte) : (s.setDt b).dirty = s.dirty := rfl
@[simp] theorem State.setDt_rs (b : Byte) : (s.setDt b).rs = s.rs := rfl
@[simp] theorem State.setDt_hr (b : Byte) : (s.setDt b).hr = s.hr := rfl
@[simp] theorem State.setDt_ci (b : Byte) : (s.setDt b).ci = s.ci := rfl
@[simp] theorem State.setDt_uc (b : Byte) : (s.setDt b).uc = s.uc := rfl
@[simp] theorem State.setDt_mem (b : Byte) : (s.setDt b).mem = s.mem := rfl
@[simp] theorem State.setDt_draws (b : Byte) : (s.setDt b).draws = s.draws := rfl
@[simp] theorem State.setDt_reg (b : Byte) (q : Reg) : (s.setDt b).reg q = s.reg q := rfl
@[simp] theorem State.setDt_held (b : Byte) (q : Key) : (s.setDt b).held q = s.held q := rfl

/-! ## setSt -/

@[simp] theorem State.setSt_v (b : Byte) : (s.setSt b).v = s.v := rfl
@[simp] theorem State.setSt_i (b : Byte) : (s.setSt b).i = s.i := rfl
@[simp] theorem State.setSt_pc (b : Byte) : (s.setSt b).pc = s.pc := rfl
@[simp] theorem State.setSt_stack (b : Byte) : (s.setSt b).stack = s.stack := rfl
@[simp] theorem State.setSt_sp (b : Byte) : (s.setSt b).sp = s.sp := rfl
@[simp] theorem State.setSt_dt (b : Byte) : (s.setSt b).dt = s.dt := rfl
@[simp] theorem State.setSt_st (b : Byte) : (s.setSt b).st = b := rfl
@[simp] theorem State.setSt_fb (b : Byte) : (s.setSt b).fb = s.fb := rfl
@[simp] theorem State.setSt_keys (b : Byte) : (s.setSt b).keys = s.keys := rfl
@[simp] theorem State.setSt_ak (b : Byte) : (s.setSt b).ak = s.ak := rfl
@[simp] theorem State.setSt_dirty (b : Byte) : (s.setSt b).dirty = s.dirty := rfl
@[simp] theorem State.setSt_rs (b : Byte) : (s.setSt b).rs = s.rs := rfl
@[simp] theorem State.setSt_hr (b : Byte) : (s.setSt b).hr = s.hr := rfl
@[simp] theorem State.setSt_ci (b : Byte) : (s.setSt b).ci = s.ci := rfl
@[simp] theorem State.setSt_uc (b : Byte) : (s.setSt b).uc = s.uc := rfl
@[simp] theorem State.setSt_mem (b : Byte) : (s.setSt b).mem = s.mem := rfl
@[simp] theorem State.setSt_draws (b : Byte) : (s.setSt b).draws = s.draws := rfl
@[simp] theorem State.setSt_reg (b : Byte) (q : Reg) : (s.setSt b).reg q = s.reg q := rfl
@[simp] theorem State.setSt_held (b : Byte) (q : Key) : (s.setSt b).held q = s.held q := rfl

/-! ## setAwaited -/

@[simp] theorem State.setAwaited_v (k : Option Key) : (s.setAwaited k).v = s.v := rfl
@[simp] theorem State.setAwaited_i (k : Option Key) : (s.setAwaited k).i = s.i := rfl
@[simp] theorem State.setAwaited_pc (k : Option Key) : (s.setAwaited k).pc = s.pc := rfl
@[simp] theorem State.setAwaited_stack (k : Option Key) : (s.setAwaited k).stack = s.stack := rfl
@[simp] theorem State.setAwaited_sp (k : Option Key) : (s.setAwaited k).sp = s.sp := rfl
@[simp] theorem State.setAwaited_dt (k : Option Key) : (s.setAwaited k).dt = s.dt := rfl
@[simp] theorem State.setAwaited_st (k : Option Key) : (s.setAwaited k).st = s.st := rfl
@[simp] theorem State.setAwaited_fb (k : Option Key) : (s.setAwaited k).fb = s.fb := rfl
@[simp] theorem State.setAwaited_keys (k : Option Key) : (s.setAwaited k).keys = s.keys := rfl
@[simp] theorem State.setAwaited_ak (k : Option Key) : (s.setAwaited k).ak = k := rfl
@[simp] theorem State.setAwaited_dirty (k : Option Key) : (s.setAwaited k).dirty = s.dirty := rfl
@[simp] theorem State.setAwaited_rs (k : Option Key) : (s.setAwaited k).rs = s.rs := rfl
@[simp] theorem State.setAwaited_hr (k : Option Key) : (s.setAwaited k).hr = s.hr := rfl
@[simp] theorem State.setAwaited_ci (k : Option Key) : (s.setAwaited k).ci = s.ci := rfl
@[simp] theorem State.setAwaited_uc (k : Option Key) : (s.setAwaited k).uc = s.uc := rfl
@[simp] theorem State.setAwaited_mem (k : Option Key) : (s.setAwaited k).mem = s.mem := rfl
@[simp] theorem State.setAwaited_draws (k : Option Key) : (s.setAwaited k).draws = s.draws := rfl
@[simp] theorem State.setAwaited_reg (k : Option Key) (q : Reg) : (s.setAwaited k).reg q = s.reg q := rfl
@[simp] theorem State.setAwaited_held (k : Option Key) (q : Key) : (s.setAwaited k).held q = s.held q := rfl

/-! ## setDisplay -/

@[simp] theorem State.setDisplay_v (f : Framebuffer) : (s.setDisplay f).v = s.v := rfl
@[simp] theorem State.setDisplay_i (f : Framebuffer) : (s.setDisplay f).i = s.i := rfl
@[simp] theorem State.setDisplay_pc (f : Framebuffer) : (s.setDisplay f).pc = s.pc := rfl
@[simp] theorem State.setDisplay_stack (f : Framebuffer) : (s.setDisplay f).stack = s.stack := rfl
@[simp] theorem State.setDisplay_sp (f : Framebuffer) : (s.setDisplay f).sp = s.sp := rfl
@[simp] theorem State.setDisplay_dt (f : Framebuffer) : (s.setDisplay f).dt = s.dt := rfl
@[simp] theorem State.setDisplay_st (f : Framebuffer) : (s.setDisplay f).st = s.st := rfl
@[simp] theorem State.setDisplay_fb (f : Framebuffer) : (s.setDisplay f).fb = f := rfl
@[simp] theorem State.setDisplay_keys (f : Framebuffer) : (s.setDisplay f).keys = s.keys := rfl
@[simp] theorem State.setDisplay_ak (f : Framebuffer) : (s.setDisplay f).ak = s.ak := rfl
@[simp] theorem State.setDisplay_dirty (f : Framebuffer) : (s.setDisplay f).dirty = true := rfl
@[simp] theorem State.setDisplay_rs (f : Framebuffer) : (s.setDisplay f).rs = s.rs := rfl
@[simp] theorem State.setDisplay_hr (f : Framebuffer) : (s.setDisplay f).hr = s.hr := rfl
@[simp] theorem State.setDisplay_ci (f : Framebuffer) : (s.setDisplay f).ci = s.ci := rfl
@[simp] theorem State.setDisplay_uc (f : Framebuffer) : (s.setDisplay f).uc = s.uc := rfl
@[simp] theorem State.setDisplay_mem (f : Framebuffer) : (s.setDisplay f).mem = s.mem := rfl
@[simp] theorem State.setDisplay_draws (f : Framebuffer) : (s.setDisplay f).draws = s.draws := rfl
@[simp] theorem State.setDisplay_reg (f : Framebuffer) (q : Reg) : (s.setDisplay f).reg q = s.reg q := rfl
@[simp] theorem State.setDisplay_held (f : Framebuffer) (q : Key) : (s.setDisplay f).held q = s.held q := rfl

/-! ## advance -/

@[simp] theorem advance_v (op : Word) : (advance op s).v = s.v := rfl
@[simp] theorem advance_i (op : Word) : (advance op s).i = s.i := rfl
@[simp] theorem advance_pc (op : Word) : (advance op s).pc = s.pc + 2 := rfl
@[simp] theorem advance_stack (op : Word) : (advance op s).stack = s.stack := rfl
@[simp] theorem advance_sp (op : Word) : (advance op s).sp = s.sp := rfl
@[simp] theorem advance_dt (op : Word) : (advance op s).dt = s.dt := rfl
@[simp] theorem advance_st (op : Word) : (advance op s).st = s.st := rfl
@[simp] theorem advance_fb (op : Word) : (advance op s).fb = s.fb := rfl
@[simp] theorem advance_keys (op : Word) : (advance op s).keys = s.keys := rfl
@[simp] theorem advance_ak (op : Word) : (advance op s).ak = s.ak := rfl
@[simp] theorem advance_dirty (op : Word) : (advance op s).dirty = s.dirty := rfl
@[simp] theorem advance_rs (op : Word) : (advance op s).rs = s.rs := rfl
@[simp] theorem advance_hr (op : Word) : (advance op s).hr = s.hr := rfl
@[simp] theorem advance_ci (op : Word) : (advance op s).ci = op := rfl
@[simp] theorem advance_uc (op : Word) : (advance op s).uc = s.uc := rfl
@[simp] theorem advance_mem (op : Word) : (advance op s).mem = s.mem := rfl
@[simp] theorem advance_draws (op : Word) : (advance op s).draws = s.draws := rfl
@[simp] theorem advance_reg (op : Word) (q : Reg) : (advance op s).reg q = s.reg q := rfl
@[simp] theorem advance_held (op : Word) (q : Key) : (advance op s).held q = s.held q := rfl

/-! ## fatalEntry -/

@[simp] theorem fatalEntry_v (pc0 : Word) (reason : HaltReason) : (fatalEntry pc0 reason s).v = s.v := rfl
@[simp] theorem fatalEntry_i (pc0 : Word) (reason : HaltReason) : (fatalEntry pc0 reason s).i = s.i := rfl
@[simp] theorem fatalEntry_pc (pc0 : Word) (reason : HaltReason) : (fatalEntry pc0 reason s).pc = pc0 := rfl
@[simp] theorem fatalEntry_stack (pc0 : Word) (reason : HaltReason) : (fatalEntry pc0 reason s).stack = s.stack := rfl
@[simp] theorem fatalEntry_sp (pc0 : Word) (reason : HaltReason) : (fatalEntry pc0 reason s).sp = s.sp := rfl
@[simp] theorem fatalEntry_dt (pc0 : Word) (reason : HaltReason) : (fatalEntry pc0 reason s).dt = s.dt := rfl
@[simp] theorem fatalEntry_st (pc0 : Word) (reason : HaltReason) : (fatalEntry pc0 reason s).st = s.st := rfl
@[simp] theorem fatalEntry_fb (pc0 : Word) (reason : HaltReason) : (fatalEntry pc0 reason s).fb = s.fb := rfl
@[simp] theorem fatalEntry_keys (pc0 : Word) (reason : HaltReason) : (fatalEntry pc0 reason s).keys = s.keys := rfl
@[simp] theorem fatalEntry_ak (pc0 : Word) (reason : HaltReason) : (fatalEntry pc0 reason s).ak = s.ak := rfl
@[simp] theorem fatalEntry_dirty (pc0 : Word) (reason : HaltReason) : (fatalEntry pc0 reason s).dirty = s.dirty := rfl
@[simp] theorem fatalEntry_rs (pc0 : Word) (reason : HaltReason) : (fatalEntry pc0 reason s).rs = .halted := rfl
@[simp] theorem fatalEntry_hr (pc0 : Word) (reason : HaltReason) : (fatalEntry pc0 reason s).hr = reason := rfl
@[simp] theorem fatalEntry_ci (pc0 : Word) (reason : HaltReason) : (fatalEntry pc0 reason s).ci = s.ci := rfl
@[simp] theorem fatalEntry_uc (pc0 : Word) (reason : HaltReason) : (fatalEntry pc0 reason s).uc = s.uc := rfl
@[simp] theorem fatalEntry_mem (pc0 : Word) (reason : HaltReason) : (fatalEntry pc0 reason s).mem = s.mem := rfl
@[simp] theorem fatalEntry_draws (pc0 : Word) (reason : HaltReason) : (fatalEntry pc0 reason s).draws = s.draws := rfl
@[simp] theorem fatalEntry_reg (pc0 : Word) (reason : HaltReason) (q : Reg) : (fatalEntry pc0 reason s).reg q = s.reg q := rfl
@[simp] theorem fatalEntry_held (pc0 : Word) (reason : HaltReason) (q : Key) : (fatalEntry pc0 reason s).held q = s.held q := rfl

/-! ## tick -/

@[simp] theorem tick_v : (tick s).v = s.v := rfl
@[simp] theorem tick_i : (tick s).i = s.i := rfl
@[simp] theorem tick_pc : (tick s).pc = s.pc := rfl
@[simp] theorem tick_stack : (tick s).stack = s.stack := rfl
@[simp] theorem tick_sp : (tick s).sp = s.sp := rfl
@[simp] theorem tick_dt : (tick s).dt = countDown s.dt := rfl
@[simp] theorem tick_st : (tick s).st = countDown s.st := rfl
@[simp] theorem tick_fb : (tick s).fb = s.fb := rfl
@[simp] theorem tick_keys : (tick s).keys = s.keys := rfl
@[simp] theorem tick_ak : (tick s).ak = s.ak := rfl
@[simp] theorem tick_dirty : (tick s).dirty = s.dirty := rfl
@[simp] theorem tick_rs : (tick s).rs = s.rs := rfl
@[simp] theorem tick_hr : (tick s).hr = s.hr := rfl
@[simp] theorem tick_ci : (tick s).ci = s.ci := rfl
@[simp] theorem tick_uc : (tick s).uc = s.uc := rfl
@[simp] theorem tick_mem : (tick s).mem = s.mem := rfl
@[simp] theorem tick_draws : (tick s).draws = s.draws := rfl
@[simp] theorem tick_reg (q : Reg) : (tick s).reg q = s.reg q := rfl
@[simp] theorem tick_held (q : Key) : (tick s).held q = s.held q := rfl

/-! ## writeKeys -/

@[simp] theorem writeKeys_v (k : Vector Bool 16) : (writeKeys k s).v = s.v := rfl
@[simp] theorem writeKeys_i (k : Vector Bool 16) : (writeKeys k s).i = s.i := rfl
@[simp] theorem writeKeys_pc (k : Vector Bool 16) : (writeKeys k s).pc = s.pc := rfl
@[simp] theorem writeKeys_stack (k : Vector Bool 16) : (writeKeys k s).stack = s.stack := rfl
@[simp] theorem writeKeys_sp (k : Vector Bool 16) : (writeKeys k s).sp = s.sp := rfl
@[simp] theorem writeKeys_dt (k : Vector Bool 16) : (writeKeys k s).dt = s.dt := rfl
@[simp] theorem writeKeys_st (k : Vector Bool 16) : (writeKeys k s).st = s.st := rfl
@[simp] theorem writeKeys_fb (k : Vector Bool 16) : (writeKeys k s).fb = s.fb := rfl
@[simp] theorem writeKeys_keys (k : Vector Bool 16) : (writeKeys k s).keys = k := rfl
@[simp] theorem writeKeys_ak (k : Vector Bool 16) : (writeKeys k s).ak = s.ak := rfl
@[simp] theorem writeKeys_dirty (k : Vector Bool 16) : (writeKeys k s).dirty = s.dirty := rfl
@[simp] theorem writeKeys_rs (k : Vector Bool 16) : (writeKeys k s).rs = s.rs := rfl
@[simp] theorem writeKeys_hr (k : Vector Bool 16) : (writeKeys k s).hr = s.hr := rfl
@[simp] theorem writeKeys_ci (k : Vector Bool 16) : (writeKeys k s).ci = s.ci := rfl
@[simp] theorem writeKeys_uc (k : Vector Bool 16) : (writeKeys k s).uc = s.uc := rfl
@[simp] theorem writeKeys_mem (k : Vector Bool 16) : (writeKeys k s).mem = s.mem := rfl
@[simp] theorem writeKeys_draws (k : Vector Bool 16) : (writeKeys k s).draws = s.draws := rfl
@[simp] theorem writeKeys_reg (k : Vector Bool 16) (q : Reg) : (writeKeys k s).reg q = s.reg q := rfl
@[simp] theorem writeKeys_held (k : Vector Bool 16) (q : Key) : (writeKeys k s).held q = k[q] := rfl

/-! ## clearDirty -/

@[simp] theorem clearDirty_v : (clearDirty s).v = s.v := rfl
@[simp] theorem clearDirty_i : (clearDirty s).i = s.i := rfl
@[simp] theorem clearDirty_pc : (clearDirty s).pc = s.pc := rfl
@[simp] theorem clearDirty_stack : (clearDirty s).stack = s.stack := rfl
@[simp] theorem clearDirty_sp : (clearDirty s).sp = s.sp := rfl
@[simp] theorem clearDirty_dt : (clearDirty s).dt = s.dt := rfl
@[simp] theorem clearDirty_st : (clearDirty s).st = s.st := rfl
@[simp] theorem clearDirty_fb : (clearDirty s).fb = s.fb := rfl
@[simp] theorem clearDirty_keys : (clearDirty s).keys = s.keys := rfl
@[simp] theorem clearDirty_ak : (clearDirty s).ak = s.ak := rfl
@[simp] theorem clearDirty_dirty : (clearDirty s).dirty = false := rfl
@[simp] theorem clearDirty_rs : (clearDirty s).rs = s.rs := rfl
@[simp] theorem clearDirty_hr : (clearDirty s).hr = s.hr := rfl
@[simp] theorem clearDirty_ci : (clearDirty s).ci = s.ci := rfl
@[simp] theorem clearDirty_uc : (clearDirty s).uc = s.uc := rfl
@[simp] theorem clearDirty_mem : (clearDirty s).mem = s.mem := rfl
@[simp] theorem clearDirty_draws : (clearDirty s).draws = s.draws := rfl
@[simp] theorem clearDirty_reg (q : Reg) : (clearDirty s).reg q = s.reg q := rfl
@[simp] theorem clearDirty_held (q : Key) : (clearDirty s).held q = s.held q := rfl

/-- A timer's count-down as a number. -/
theorem toNat_countDown (b : Byte) : (countDown b).toNat = b.toNat - 1 := by
  revert b
  decide

end Sys2Proof.Machine
end

