-- ==== Sys2Proof/Laws/Ops.lean ====
section
/-!
SUPPORT. One lemma per shared operation over registers and control state: what it leaves in the state.
-/

namespace Sys2Proof.Machine

@[simp] theorem raiseFatal_eq (reason : HaltReason) (s : State) :
    raiseFatal reason s = .next (fatalEntry (s.pc - 2) reason s) := rfl

@[simp] theorem fetchFault_eq (s : State) : fetchFault s = .next (fatalEntry s.pc .fetchOutOfRange s) := rfl

@[simp] theorem unrecognized_eq (s : State) : unrecognized s = .next { s with uc := s.uc + 1 } := rfl

/-- The fetch's bound as 40_step.md R70 words it. -/
theorem fetchOutOfRange_iff {s : State} : FetchOutOfRange s ↔ s.pc.toNat > 0xFFE := by
  simp only [FetchOutOfRange, Config.memSize]

/-- A skip moves PC by 2 when its condition holds and changes nothing otherwise. -/
theorem skipIf_eq (c : Bool) (s : State) : skipIf c s = s.setPc (if c then s.pc + 2 else s.pc) := by
  cases c <;> rfl

/-- With the flag written last: VF is the flag, and X the result unless X is VF. -/
theorem writeRF_true_reg (x : Reg) (o : Flagged) (s : State) (q : Reg) :
    (writeRF true x o s).reg q = if q = vF then flagByte o.f else if q = x then o.r else s.reg q := by
  simp only [writeRF, if_true, State.setReg_reg, eq_comm]

/-- With the flag written first: X is the result, and VF the flag unless X is VF. -/
theorem writeRF_false_reg (x : Reg) (o : Flagged) (s : State) (q : Reg) :
    (writeRF false x o s).reg q = if q = x then o.r else if q = vF then flagByte o.f else s.reg q := by
  simp [writeRF, State.setReg_reg, eq_comm]

/-- A flag-setting write changes the register file alone. -/
theorem writeRF_eq (last : Bool) (x : Reg) (o : Flagged) (s : State) :
    writeRF last x o s = { s with v := (writeRF last x o s).v } := by
  cases last <;> rfl

@[simp] theorem State.reg_mk_v (s : State) (w : Vector Byte 16) (r : Reg) : ({ s with v := w } : State).reg r = w[r.val] := rfl

/-- A register after FX65's load. -/
theorem loadRegs_getElem (s : State) (x : Reg) (base : Nat) (r : Reg) :
    (loadRegs s x base)[r.val] = if r ≤ x then s.mem.read (base + r.val) else s.reg r := by
  simp [loadRegs]

@[simp] theorem length_regsUpTo (s : State) (x : Reg) : (regsUpTo s x).length = regCount x := by
  have := x.isLt
  simp [regsUpTo, regCount]

/-- The k-th byte FX55 stores is V[k]. -/
theorem regsUpTo_getD (s : State) (x r : Reg) (h : r ≤ x) : (regsUpTo s x).getD r.val 0 = s.reg r := by
  have hr : r.val < (regsUpTo s x).length := by simp [regCount]; omega
  rw [List.getD_eq_getElem _ _ hr]
  simp [regsUpTo, State.reg]

/-- A key index names a key exactly when it is at most 15. -/
theorem keyOperand_eq_some {s : State} {x : Reg} {k : Key} : keyOperand s x = some k ↔ (s.reg x).toNat = k.val := by
  unfold keyOperand
  have := k.isLt
  have h16 : Config.nKeys = 16 := rfl
  split
  · simp [Fin.ext_iff]
  · simp; omega

theorem keyOperand_eq_none {s : State} {x : Reg} : keyOperand s x = none ↔ (s.reg x).toNat > 0x0F := by
  unfold keyOperand
  have h16 : Config.nKeys = 16 := rfl
  split
  · simp; omega
  · simp; omega

/-- The least held key is held, and no lower-numbered key is. -/
theorem leastHeld_eq_some {s : State} {k : Key} : leastHeld s = some k ↔ s.held k = true ∧ ∀ j, j < k → s.held j = false := by
  unfold leastHeld
  rw [List.find?_eq_some_iff_getElem]
  constructor
  · rintro ⟨hk, i, hi, rfl, hlow⟩
    refine ⟨hk, fun j hj => ?_⟩
    simp only [List.getElem_finRange, Fin.lt_def, Fin.val_cast] at hj
    have := hlow j.val hj
    simpa [List.getElem_finRange] using this
  · rintro ⟨hk, hlow⟩
    refine ⟨hk, k.val, by simp, by simp, fun j hj => ?_⟩
    have := hlow ⟨j, by omega⟩ (by simpa [Fin.lt_def] using hj)
    simpa [List.getElem_finRange] using this

theorem leastHeld_eq_none {s : State} : leastHeld s = none ↔ ∀ k, s.held k = false := by
  simp [leastHeld]

/-- A placed word is fetched whole. -/
theorem fetchWord_placeWord {s : State} (hm : s.mem.Pairwise fun c d => c.1 < d.1) (hpc : ¬ FetchOutOfRange s) (op : Word) :
    fetchWord (placeWord op s) = op := by
  simp only [fetchWord, placeWord, hpc, if_false, State.setMem_mem, State.setMem_pc, Memory.read_writeBytes hm]
  simp [wordOfBytes_high_low]

end Sys2Proof.Machine
end

