-- ==== Sys2Proof/Laws/Exec.lean ====
section
/-!
SUPPORT. What an instruction and a step can do, said once: `exec` always answers a next state, which is either a fatal entry of
its own reason or leaves the run-state, the diagnostics and the keypad alone; and the cases of a step that answers a next state.
-/

namespace Sys2Proof.Machine

/-- The elements no instruction writes when it completes. -/
structure Kept (s t : State) : Prop where
  rs : t.rs = s.rs
  hr : t.hr = s.hr
  ci : t.ci = s.ci
  uc : t.uc = s.uc
  keys : t.keys = s.keys

/-- What `exec` answers: a fatal entry with a reason other than the fetch's, or a completion. -/
inductive ExecOutcome (s : State) : Result → Prop where
  | fatal (reason : HaltReason) (h : reason.isFatal = true) (hf : reason ≠ .fetchOutOfRange) :
    ExecOutcome s (.next (fatalEntry (s.pc - 2) reason s))
  | completes (t : State) (h : Kept s t) : ExecOutcome s (.next t)

theorem Kept.writeRF (last : Bool) (x : Reg) (o : Flagged) (s : State) : Kept s (writeRF last x o s) := by
  cases last <;> exact ⟨rfl, rfl, rfl, rfl, rfl⟩

theorem Kept.skipIf (c : Bool) (s : State) : Kept s (skipIf c s) := by
  cases c <;> exact ⟨rfl, rfl, rfl, rfl, rfl⟩

theorem exec_outcome (i : Instr) (s : State) : ExecOutcome s (exec i s) := by
  cases i with
  | sys | cls | jp | ldImm | addImm | ldReg | orReg | andReg | xorReg | ldI | jpV0 | rnd | ldVxDt | ldDtVx | ldStVx | addI
  | ldF => exact .completes _ ⟨rfl, rfl, rfl, rfl, rfl⟩
  | seImm | sneImm | seReg | sneReg => exact .completes _ (Kept.skipIf _ _)
  | addReg | subReg | shr | subnReg | shl => exact .completes _ (Kept.writeRF _ _ _ _)
  | ret =>
    simp only [exec, execRet]
    split
    · exact .fatal _ rfl (by decide)
    · exact .completes _ ⟨rfl, rfl, rfl, rfl, rfl⟩
  | call nnn =>
    simp only [exec, execCall]
    split
    · exact .completes _ ⟨rfl, rfl, rfl, rfl, rfl⟩
    · exact .fatal _ rfl (by decide)
  | drw x y n =>
    simp only [exec, execDrw]
    split
    · exact .completes _ ⟨rfl, rfl, rfl, rfl, rfl⟩
    · exact .fatal _ rfl (by decide)
  | skp x =>
    simp only [exec, execSkp]
    split
    · exact .completes _ (Kept.skipIf _ _)
    · exact .fatal _ rfl (by decide)
  | sknp x =>
    simp only [exec, execSknp]
    split
    · exact .completes _ (Kept.skipIf _ _)
    · exact .fatal _ rfl (by decide)
  | ldVxK x =>
    simp only [exec, execLdVxK]
    split
    · split <;> exact .completes _ ⟨rfl, rfl, rfl, rfl, rfl⟩
    · split <;> exact .completes _ ⟨rfl, rfl, rfl, rfl, rfl⟩
  | ldB x =>
    simp only [exec, execLdB]
    split
    · exact .completes _ ⟨rfl, rfl, rfl, rfl, rfl⟩
    · exact .fatal _ rfl (by decide)
  | ldMemVx x =>
    simp only [exec, execLdMemVx]
    split
    · exact .completes _ ⟨rfl, rfl, rfl, rfl, rfl⟩
    · exact .fatal _ rfl (by decide)
  | ldVxMem x =>
    simp only [exec, execLdVxMem]
    split
    · exact .completes _ ⟨rfl, rfl, rfl, rfl, rfl⟩
    · exact .fatal _ rfl (by decide)

/-- An instruction with a skip condition is the skip on it. -/
theorem exec_of_skipCondition {s : State} {i : Instr} {c : Bool} (h : skipCondition s i = some c) :
    exec i s = .next (skipIf c s) := by
  cases i with
  | seImm | sneImm | seReg | sneReg => cases h; rfl
  | skp x =>
    obtain ⟨k, hk, rfl⟩ := Option.map_eq_some_iff.mp h
    simp only [exec, execSkp, hk]
  | sknp x =>
    obtain ⟨k, hk, rfl⟩ := Option.map_eq_some_iff.mp h
    simp only [exec, execSknp, hk]
  | _ => cases h

/-- A step that answers a next state ran in Running and did one of three things. -/
theorem step_next_cases {s t : State} (h : step s = .next t) :
    s.rs = .running ∧
      ((FetchOutOfRange s ∧ t = fatalEntry s.pc .fetchOutOfRange s) ∨
        (¬ FetchOutOfRange s ∧ ∃ i, decodeWord (fetchWord s) = .ok i ∧ exec i (advance (fetchWord s) s) = .next t) ∨
        (¬ FetchOutOfRange s ∧ ∃ r, decodeWord (fetchWord s) = .error r ∧
          t = { advance (fetchWord s) s with uc := s.uc + 1 })) := by
  unfold step at h
  split at h
  · refine ⟨‹_›, ?_⟩
    unfold runStep at h
    split at h
    · exact .inl ⟨‹_›, by simpa using h.symm⟩
    · split at h
      · exact .inr (.inl ⟨‹_›, _, ‹_›, h⟩)
      · exact .inr (.inr ⟨‹_›, _, ‹_›, by simpa using h.symm⟩)
  · cases h
  · cases h

/-- A byte of memory is the byte of the word fetched from its address. -/
theorem fetchedAt_of_read {t : State} {a b : Nat} (h : (t.mem.read a).toNat = b) : FetchedAt t a b := by
  have split (hi lo : Byte) : (wordOfBytes hi lo).toNat / 256 = hi.toNat ∧ (wordOfBytes hi lo).toNat % 256 = lo.toNat := by
    rw [toNat_wordOfBytes]
    omega
  exact ⟨fun ha => by rw [fetchWord, (split _ _).1, ha, h], fun ha => by rw [fetchWord, (split _ _).2, ha, h]⟩

/-- The sprite bit over the rows a draw reads: set only inside them, and there the bit of the byte read. -/
theorem spriteBit_eq (s : State) (x y : Reg) (n : BitVec 4) (cx cy : Nat) :
    spriteBit s x y n cx cy =
      (decide (spriteX s x ≤ cx ∧ cx < spriteX s x + 8 ∧ cx < 64 ∧ spriteY s y ≤ cy ∧ cy < spriteY s y + spriteRows s y n) &&
        (s.mem.read (s.i.toNat + (cy - spriteY s y))).getLsbD (7 - (cx - spriteX s x))) := by
  have rows : (spriteY s y ≤ cy ∧ cy < spriteY s y + n.toNat ∧ cy < 32) ↔
      (spriteY s y ≤ cy ∧ cy < spriteY s y + spriteRows s y n) := by
    simp only [spriteRows, spriteY, Config.fbH]
    omega
  unfold spriteBit spriteBitFrom
  exact congrArg₂ _ (decide_eq_decide.mpr (and_congr_right fun _ => and_congr_right fun _ => and_congr_right fun _ => rows)) rfl

end Sys2Proof.Machine
end

