-- ==== Sys2Proof/Laws/PerInstr.lean ====
section
/-!
SUPPORT. Per-instruction facts about the instruction as data. Family `FamilyNibble`: the top nibble of an instruction's word is
the one 30_encoding.md R58 gives its family.
-/

namespace Sys2Proof.Laws.FamilyNibble

/-- The family nibble of 30_encoding.md R58. -/
def nibble : Instr → BitVec 4
  | .sys _ | .cls | .ret => 0x0
  | .jp _ => 0x1
  | .call _ => 0x2
  | .seImm _ _ => 0x3
  | .sneImm _ _ => 0x4
  | .seReg _ _ => 0x5
  | .ldImm _ _ => 0x6
  | .addImm _ _ => 0x7
  | .ldReg _ _ | .orReg _ _ | .andReg _ _ | .xorReg _ _ | .addReg _ _ | .subReg _ _ | .shr _ _ | .subnReg _ _ | .shl _ _ => 0x8
  | .sneReg _ _ => 0x9
  | .ldI _ => 0xA
  | .jpV0 _ => 0xB
  | .rnd _ _ => 0xC
  | .drw _ _ _ => 0xD
  | .skp _ | .sknp _ => 0xE
  | .ldVxDt _ | .ldVxK _ | .ldDtVx _ | .ldStVx _ | .addI _ | .ldF _ | .ldB _ | .ldMemVx _ | .ldVxMem _ => 0xF

/-- The word's top nibble is the family's. -/
def Statement (i : Instr) : Prop := (fieldsOf (encode i)).t = nibble i

theorem sys (nnn : BitVec 12) : Statement (.sys nnn) := (fieldsOf_wordNNN _ _).1
theorem cls : Statement .cls := rfl
theorem ret : Statement .ret := rfl
theorem jp (nnn : BitVec 12) : Statement (.jp nnn) := (fieldsOf_wordNNN _ _).1
theorem call (nnn : BitVec 12) : Statement (.call nnn) := (fieldsOf_wordNNN _ _).1
theorem seImm (x : Reg) (nn : Byte) : Statement (.seImm x nn) := (fieldsOf_wordXNN _ _ _).1
theorem sneImm (x : Reg) (nn : Byte) : Statement (.sneImm x nn) := (fieldsOf_wordXNN _ _ _).1
theorem seReg (x y : Reg) : Statement (.seReg x y) := (fieldsOf_wordXYN _ _ _ _).1
theorem ldImm (x : Reg) (nn : Byte) : Statement (.ldImm x nn) := (fieldsOf_wordXNN _ _ _).1
theorem addImm (x : Reg) (nn : Byte) : Statement (.addImm x nn) := (fieldsOf_wordXNN _ _ _).1
theorem ldReg (x y : Reg) : Statement (.ldReg x y) := (fieldsOf_wordXYN _ _ _ _).1
theorem orReg (x y : Reg) : Statement (.orReg x y) := (fieldsOf_wordXYN _ _ _ _).1
theorem andReg (x y : Reg) : Statement (.andReg x y) := (fieldsOf_wordXYN _ _ _ _).1
theorem xorReg (x y : Reg) : Statement (.xorReg x y) := (fieldsOf_wordXYN _ _ _ _).1
theorem addReg (x y : Reg) : Statement (.addReg x y) := (fieldsOf_wordXYN _ _ _ _).1
theorem subReg (x y : Reg) : Statement (.subReg x y) := (fieldsOf_wordXYN _ _ _ _).1
theorem shr (x y : Reg) : Statement (.shr x y) := (fieldsOf_wordXYN _ _ _ _).1
theorem subnReg (x y : Reg) : Statement (.subnReg x y) := (fieldsOf_wordXYN _ _ _ _).1
theorem shl (x y : Reg) : Statement (.shl x y) := (fieldsOf_wordXYN _ _ _ _).1
theorem sneReg (x y : Reg) : Statement (.sneReg x y) := (fieldsOf_wordXYN _ _ _ _).1
theorem ldI (nnn : BitVec 12) : Statement (.ldI nnn) := (fieldsOf_wordNNN _ _).1
theorem jpV0 (nnn : BitVec 12) : Statement (.jpV0 nnn) := (fieldsOf_wordNNN _ _).1
theorem rnd (x : Reg) (nn : Byte) : Statement (.rnd x nn) := (fieldsOf_wordXNN _ _ _).1
theorem drw (x y : Reg) (n : BitVec 4) : Statement (.drw x y n) := (fieldsOf_wordXYN _ _ _ _).1
theorem skp (x : Reg) : Statement (.skp x) := (fieldsOf_wordXNN _ _ _).1
theorem sknp (x : Reg) : Statement (.sknp x) := (fieldsOf_wordXNN _ _ _).1
theorem ldVxDt (x : Reg) : Statement (.ldVxDt x) := (fieldsOf_wordXNN _ _ _).1
theorem ldVxK (x : Reg) : Statement (.ldVxK x) := (fieldsOf_wordXNN _ _ _).1
theorem ldDtVx (x : Reg) : Statement (.ldDtVx x) := (fieldsOf_wordXNN _ _ _).1
theorem ldStVx (x : Reg) : Statement (.ldStVx x) := (fieldsOf_wordXNN _ _ _).1
theorem addI (x : Reg) : Statement (.addI x) := (fieldsOf_wordXNN _ _ _).1
theorem ldF (x : Reg) : Statement (.ldF x) := (fieldsOf_wordXNN _ _ _).1
theorem ldB (x : Reg) : Statement (.ldB x) := (fieldsOf_wordXNN _ _ _).1
theorem ldMemVx (x : Reg) : Statement (.ldMemVx x) := (fieldsOf_wordXNN _ _ _).1
theorem ldVxMem (x : Reg) : Statement (.ldVxMem x) := (fieldsOf_wordXNN _ _ _).1

end Sys2Proof.Laws.FamilyNibble
end

