-- ==== Sys2Proof/Tests/Slice0.lean ====
section
/-!
SUPPORT. Tests of the model. Expected values are the vectors of spec/95_test_vectors.md, named by their id, and words written out
from 30_encoding.md R66. Then, for each statement with hypotheses, a concrete state and operands that meet them.
-/

namespace Sys2Proof.Tests

open Sys2Proof Sys2Proof.Machine

/-! ## Small states -/

/-- The reset state with registers, I and bytes of memory set. -/
def start (regs : List (Reg × Byte)) (i : Word) (cells : List (Nat × Byte)) : State :=
  regs.foldl (fun s p => s.setReg p.1 p.2)
    ({ State.reset with i := i }.setMem (cells.foldl (fun (m : Memory) (c : Nat × Byte) => m.write c.1 c.2) []))

/-- One step on the word `op`, stored where the step fetches. -/
def run (op : Nat) (s : State) : Result := step (s.withFetchWord 16 op)

/-- What `f` reads from a next state. -/
def look {α : Type} (r : Result) (f : State → α) : Option α :=
  match r with
  | .next t => some (f t)
  | .fault _ => none
  | .refused _ => none

/-! ## WellFormed: an ill-formed term for each check -/

theorem test_wf_refuses_sys_0E0 : (Instr.sys 0x0E0).wf = false := by decide
theorem test_wf_refuses_sys_0EE : (Instr.sys 0x0EE).wf = false := by decide
theorem test_wf_accepts_sys_123 : (Instr.sys 0x123).wf = true := by decide

/-! ## Decode: every constructor from a word written out from its encoding -/

theorem test_decode_sys : decodeWord 0b0000000100100011 = .ok (.sys 0x123) := by decide
theorem test_decode_cls : decodeWord 0b0000000011100000 = .ok .cls := by decide
theorem test_decode_ret : decodeWord 0b0000000011101110 = .ok .ret := by decide
theorem test_decode_jp : decodeWord 0b0001001000110100 = .ok (.jp 0x234) := by decide
theorem test_decode_call : decodeWord 0b0010001100000001 = .ok (.call 0x301) := by decide
theorem test_decode_seImm : decodeWord 0b0011001101000010 = .ok (.seImm 3 0x42) := by decide
theorem test_decode_sneImm : decodeWord 0b0100001101000010 = .ok (.sneImm 3 0x42) := by decide
theorem test_decode_seReg : decodeWord 0b0101000100100000 = .ok (.seReg 1 2) := by decide
theorem test_decode_ldImm : decodeWord 0b0110111110101010 = .ok (.ldImm 15 0xAA) := by decide
theorem test_decode_addImm : decodeWord 0b0111001000100000 = .ok (.addImm 2 0x20) := by decide
theorem test_decode_ldReg : decodeWord 0b1000000100110000 = .ok (.ldReg 1 3) := by decide
theorem test_decode_orReg : decodeWord 0b1000000100100001 = .ok (.orReg 1 2) := by decide
theorem test_decode_andReg : decodeWord 0b1000000100100010 = .ok (.andReg 1 2) := by decide
theorem test_decode_xorReg : decodeWord 0b1000000100100011 = .ok (.xorReg 1 2) := by decide
theorem test_decode_addReg : decodeWord 0b1000000000010100 = .ok (.addReg 0 1) := by decide
theorem test_decode_subReg : decodeWord 0b1000000100100101 = .ok (.subReg 1 2) := by decide
theorem test_decode_shr : decodeWord 0b1000000100100110 = .ok (.shr 1 2) := by decide
theorem test_decode_subnReg : decodeWord 0b1000000100100111 = .ok (.subnReg 1 2) := by decide
theorem test_decode_shl : decodeWord 0b1000000100101110 = .ok (.shl 1 2) := by decide
theorem test_decode_sneReg : decodeWord 0b1001000100100000 = .ok (.sneReg 1 2) := by decide
theorem test_decode_ldI : decodeWord 0b1010001011110000 = .ok (.ldI 0x2F0) := by decide
theorem test_decode_jpV0 : decodeWord 0b1011001100000000 = .ok (.jpV0 0x300) := by decide
theorem test_decode_rnd : decodeWord 0b1100001100001111 = .ok (.rnd 3 0x0F) := by decide
theorem test_decode_drw : decodeWord 0b1101000000010101 = .ok (.drw 0 1 5) := by decide
theorem test_decode_skp : decodeWord 0b1110000110011110 = .ok (.skp 1) := by decide
theorem test_decode_sknp : decodeWord 0b1110000110100001 = .ok (.sknp 1) := by decide
theorem test_decode_ldVxDt : decodeWord 0b1111000100000111 = .ok (.ldVxDt 1) := by decide
theorem test_decode_ldVxK : decodeWord 0b1111001100001010 = .ok (.ldVxK 3) := by decide
theorem test_decode_ldDtVx : decodeWord 0b1111000100010101 = .ok (.ldDtVx 1) := by decide
theorem test_decode_ldStVx : decodeWord 0b1111001000011000 = .ok (.ldStVx 2) := by decide
theorem test_decode_addI : decodeWord 0b1111001000011110 = .ok (.addI 2) := by decide
theorem test_decode_ldF : decodeWord 0b1111010000101001 = .ok (.ldF 4) := by decide
theorem test_decode_ldB : decodeWord 0b1111010100110011 = .ok (.ldB 5) := by decide
theorem test_decode_ldMemVx : decodeWord 0b1111001001010101 = .ok (.ldMemVx 2) := by decide
theorem test_decode_ldVxMem : decodeWord 0b1111001001100101 = .ok (.ldVxMem 2) := by decide

theorem test_decode_table_word : decodeTableWord 16 0xD015 = some (.drw 0 1 5) := by decide
theorem test_decode_rest : decode [0x60, 0x0A, 0x61] = .ok (.ldImm 0 0x0A, [0x61]) := by decide
theorem test_decode_truncated : decode [0x60] = .error .truncated := by decide
theorem test_encode_drw : encodeBytes (.drw 0 1 5) = [0xD0, 0x15] := by decide

/-- Vectors T5 to T8 and T9's word: one unrecognized word per family. -/
theorem test_decode_rejects : [0x5121, 0x800F, 0x9AB1, 0xE100, 0xF1FF].map decodeWord =
    [.error .skipNibble5, .error .aluNibble8, .error .skipNibble9, .error .keyByteE, .error .miscByteF] := by decide

/-! ## The step -/

theorem test_step_odd_pc_T1 : look (step { start [] 0 [(0x201, 0x60), (0x202, 0x42)] with pc := 0x201 })
    (fun t => (t.reg 0, t.pc)) = some (0x42, 0x203) := by decide
theorem test_step_top_T2 : look (step { start [] 0 [(0xFFE, 0x12), (0xFFF, 0x00)] with pc := 0xFFE }) State.pc = some 0x200 := by
  decide
theorem test_step_fetch_fault_T3 : look (step { State.reset with pc := 0xFFF }) (fun t => (t.rs, t.hr, t.pc, t.ci)) =
    some (.halted, .fetchOutOfRange, 0xFFF, 0) := by decide
theorem test_step_unrecognized_T9 : look (run 0x9AB1 { State.reset with uc := 0xFFFFFFFF }) (fun t => (t.uc, t.pc, t.ci)) =
    some (0, 0x202, 0x9AB1) := by decide
theorem test_step_paused_T10 : look (step { State.reset with rs := .paused }) State.pc = none := by decide

/-! ## Control transfer and skips -/

theorem test_sys_X1 : look (run 0x0123 State.reset) (fun t => (t.pc, t.uc)) = some (0x202, 0) := by decide
theorem test_jp_X3 : look (run 0x1234 State.reset) State.pc = some 0x234 := by decide
theorem test_call_X12 : look (run 0x2400 { State.reset with sp := 11 }) (fun t => (t.stack[11], t.sp.val, t.pc)) =
    some (0x202, 12, 0x400) := by decide
theorem test_call_X6 : look (run 0x2300 { State.reset with sp := 12 }) (fun t => (t.rs, t.hr, t.sp.val, t.pc, t.ci)) =
    some (.halted, .stackOverflow, 12, 0x200, 0x2300) := by decide
theorem test_ret_X7 : look (run 0x00EE { State.reset with pc := 0x300, sp := 1, stack := State.reset.stack.set 0 0x202 })
    (fun t => (t.sp.val, t.pc, t.stack[0])) = some (0, 0x202, 0x202) := by decide
theorem test_ret_X8 : look (run 0x00EE State.reset) (fun t => (t.rs, t.hr, t.sp.val, t.pc)) =
    some (.halted, .stackUnderflow, 0, 0x200) := by decide
theorem test_jpV0_X10 : look (run 0xBFFF (start [(0, 0xFF)] 0 [])) State.pc = some 0x10FE := by decide
theorem test_jpV0_X11 : look (run 0xB300 (start [(3, 0x50)] 0 [])) State.pc = some 0x300 := by decide
theorem test_seImm_S1 : look (run 0x3142 (start [(1, 0x42)] 0 [])) State.pc = some 0x204 := by decide
theorem test_seImm_S2 : look (run 0x3142 (start [(1, 0x41)] 0 [])) State.pc = some 0x202 := by decide
theorem test_sneImm_S3 : look (run 0x4142 (start [(1, 0x41)] 0 [])) State.pc = some 0x204 := by decide
theorem test_seReg_S6 : look (run 0x5120 (start [(1, 7), (2, 8)] 0 [])) State.pc = some 0x202 := by decide
theorem test_seReg_S9 : look (run 0x5110 State.reset) State.pc = some 0x204 := by decide
theorem test_sneReg_S7 : look (run 0x9120 (start [(1, 7), (2, 8)] 0 [])) State.pc = some 0x204 := by decide

/-! ## Arithmetic and logic -/

theorem test_ldImm_A2 : look (run 0x6FAA State.reset) (fun t => t.reg 15) = some 0xAA := by decide
theorem test_addImm_A3 : look (run 0x7220 (start [(2, 0xF0), (15, 5)] 0 [])) (fun t => (t.reg 2, t.reg 15)) = some (0x10, 5) := by
  decide
theorem test_ldReg_A5 : look (run 0x8130 (start [(3, 0x55)] 0 [])) (fun t => t.reg 1) = some 0x55 := by decide
theorem test_orReg_A6 : look (run 0x8121 (start [(1, 0x0F), (2, 0xF0), (15, 7)] 0 [])) (fun t => (t.reg 1, t.reg 15)) =
    some (0xFF, 7) := by decide
theorem test_andReg_A7 : look (run 0x8122 (start [(1, 0x3C), (2, 0x0F)] 0 [])) (fun t => t.reg 1) = some 0x0C := by decide
theorem test_xorReg_A8 : look (run 0x8123 (start [(1, 0x3C), (2, 0x0F)] 0 [])) (fun t => t.reg 1) = some 0x33 := by decide
theorem test_addReg_A13 : look (run 0x81F4 (start [(1, 0x10), (15, 1)] 0 [])) (fun t => (t.reg 1, t.reg 15)) = some (0x11, 0) := by
  decide
theorem test_addReg_A14 : look (run 0x8F14 (start [(15, 0xFF), (1, 2)] 0 [])) (fun t => t.reg 15) = some 1 := by decide
theorem test_subReg_A15 : look (run 0x8125 (start [(1, 5), (2, 7)] 0 [])) (fun t => (t.reg 1, t.reg 15)) = some (0xFE, 0) := by
  decide
theorem test_subReg_A16 : look (run 0x8125 (start [(1, 7), (2, 7)] 0 [])) (fun t => (t.reg 1, t.reg 15)) = some (0, 1) := by decide
theorem test_shr_A20 : look (run 0x8126 (start [(1, 4), (2, 0xFF)] 0 [])) (fun t => (t.reg 1, t.reg 15)) = some (2, 0) := by decide
theorem test_shr_A21 : look (run 0x8F06 (start [(15, 3)] 0 [])) (fun t => t.reg 15) = some 1 := by decide
theorem test_subnReg_A22 : look (run 0x8127 (start [(1, 5), (2, 7)] 0 [])) (fun t => (t.reg 1, t.reg 15)) = some (2, 1) := by decide
theorem test_subnReg_A23 : look (run 0x8127 (start [(1, 1)] 0 [])) (fun t => (t.reg 1, t.reg 15)) = some (0xFF, 0) := by decide
theorem test_shl_A24 : look (run 0x810E (start [(1, 0x81)] 0 [])) (fun t => (t.reg 1, t.reg 15)) = some (2, 1) := by decide
theorem test_shl_A25 : look (run 0x810E (start [(1, 0x7F)] 0 [])) (fun t => (t.reg 1, t.reg 15)) = some (0xFE, 0) := by decide
theorem test_rnd_A28 : look (exec (.rnd 3 0x00) State.reset) (fun t => t.draws) = some 1 := by decide

/-! ## Index and memory -/

theorem test_ldI_M1 : look (run 0xA2F0 State.reset) State.i = some 0x2F0 := by decide
theorem test_addI_M3 : look (run 0xF21E (start [(2, 1)] 0xFFF [])) (fun t => (t.i, t.reg 15)) = some (0x1000, 0) := by decide
theorem test_addI_M4 : look (run 0xF21E (start [(2, 1)] 0xFFFF [])) State.i = some 0 := by decide
theorem test_ldF_M6 : look (run 0xF429 (start [(4, 0x0F)] 0 [])) State.i = some 0x4B := by decide
theorem test_ldF_M8 : look (run 0xF429 (start [(4, 0xFF)] 0 [])) State.i = some 0x4FB := by decide
theorem test_ldB_M9 : look (run 0xF533 (start [(5, 0xEA)] 0x300 [])) (fun t => t.mem.readBytes 0x300 3) = some [2, 3, 4] := by decide
theorem test_ldB_M13 : look (run 0xF533 (start [(5, 0x7B)] 0xFFE [])) (fun t => (t.hr, t.mem.read 0xFFE, t.pc)) =
    some (.memoryOutOfRange, 0, 0x200) := by decide
theorem test_ldMemVx_M14 : look (run 0xF255 (start [(0, 1), (1, 2), (2, 3), (3, 9)] 0x400 []))
    (fun t => (t.mem.readBytes 0x400 4, t.i)) = some ([1, 2, 3, 0], 0x400) := by decide
theorem test_ldMemVx_M22 : look (run 0xF055 State.reset) (fun t => (t.mem.read 0, t.mem.read 1)) = some (0, 0x90) := by decide
theorem test_ldVxMem_M18 : look (run 0xF265 (start [(3, 9)] 0x400 [(0x400, 1), (0x401, 2), (0x402, 3), (0x403, 4)]))
    (fun t => (t.reg 0, t.reg 1, t.reg 2, t.reg 3)) = some (1, 2, 3, 9) := by decide
theorem test_ldVxMem_M21 : look (run 0xF165 State.reset) (fun t => (t.reg 0, t.reg 1)) = some (0xF0, 0x90) := by decide

/-! ## Display -/

theorem test_cls_DR1 : look (run 0x00E0 { State.reset with fb := State.reset.fb.toggle 63 31 })
    (fun t => (t.fb.pixel 63 31, t.dirty)) = some (false, true) := by decide
theorem test_drw_DR6 : look (run 0xD015 (start [(0, 62), (1, 30)] 0 []))
    (fun t => (t.fb.pixel 62 30, t.fb.pixel 63 30, t.fb.pixel 62 31, t.fb.pixel 63 31, t.fb.pixel 0 30, t.reg 15)) =
    some (true, true, true, false, false, 0) := by decide
theorem test_drw_DR12 : look (run 0xD011 { start [] 0x300 [(0x300, 0xC0)] with fb := State.reset.fb.toggle 0 0 })
    (fun t => (t.fb.pixel 0 0, t.fb.pixel 1 0, t.reg 15, t.dirty)) = some (false, true, 1, true) := by decide

/-! ## Keypad and timers -/

/-- The reset state with V1 = 5 and the keys held. -/
def keyState (held : List Key) : State :=
  { start [(1, 5)] 0 [] with keys := held.foldl (fun (k : Vector Bool 16) (h : Key) => k.set h.val true h.isLt) State.reset.keys }

theorem test_skp_KS1 : look (run 0xE19E (keyState [5])) State.pc = some 0x204 := by decide
theorem test_skp_KS5 : look (run 0xE19E (start [(1, 0x10)] 0 [])) (fun t => (t.hr, t.pc)) = some (.keyIndexOutOfRange, 0x200) := by
  decide
theorem test_sknp_KS3 : look (run 0xE1A1 (keyState [])) State.pc = some 0x204 := by decide
theorem test_sknp_KS4 : look (run 0xE1A1 (keyState [5])) State.pc = some 0x202 := by decide
theorem test_ldVxK_K2 : look (run 0xF30A (keyState [9, 2])) (fun t => (t.ak, t.reg 3, t.pc)) = some (some 2, 0, 0x200) := by decide
theorem test_ldVxK_K5 : look (run 0xF30A { keyState [3] with ak := some 7 }) (fun t => (t.ak, t.reg 3, t.pc)) =
    some (none, 7, 0x202) := by decide
theorem test_ldVxDt_TM1 : look (run 0xF107 { State.reset with dt := 0x3C }) (fun t => (t.reg 1, t.dt)) = some (0x3C, 0x3C) := by
  decide
theorem test_ldDtVx_TM2 : look (run 0xF115 (start [(1, 0x3C)] 0 [])) (fun t => (t.dt, t.st)) = some (0x3C, 0) := by decide
theorem test_ldStVx_TM3 : look (run 0xF218 (start [(2, 2)] 0 [])) (fun t => (t.st, soundOutput t)) = some (2, true) := by decide

/-! ## The host's operations -/

theorem test_tick_TM5 : look (perform .tick { State.reset with st := 2 }) (fun t => (t.dt, t.st)) = some (0, 1) := by decide
theorem test_command_HC3 : look (perform (.command .halt) State.reset) (fun t => (t.rs.code, t.hr.code)) = some (2, 6) := by decide
theorem test_command_HC4 : look (perform (.command .halt) { State.reset with rs := .halted, hr := .stackOverflow }) State.hr =
    some .stackOverflow := by decide
theorem test_clearDirty_HC5 : look (perform .clearDirty { State.reset with dirty := true }) State.dirty = some false := by decide
theorem test_load_IN4 : look (perform (.load (some [0x12, 0x00])) { State.reset with rs := .halted, pc := 7 })
    (fun t => (t.rs, t.pc, t.mem.readBytes 0x1FF 4)) = some (.running, 0x200, [0, 0x12, 0x00, 0]) := by decide
theorem test_load_IN3 : look (perform (.load none) State.reset) State.pc = none := by decide
theorem test_initStatus_IN1 (image : List Byte) (h : image.length = 3585) : initStatus (some image) = .programTooLarge := by
  simp [initStatus, h]
theorem test_awaitedCode : awaitedCode (some 7) = 0b10111 := by decide

/-! ## Memory's canonical form -/

theorem test_write_unlisted_removes : Memory.write [(0x300, 5)] 0x300 0 = [] := by decide
theorem test_write_keeps_order : Memory.write [(0x300, 5)] 0x2FF 7 = [(0x2FF, 7), (0x300, 5)] := by decide
theorem test_font_length : Config.font.length = Config.fontLen := by decide
theorem test_progMax : Config.progMax = 3584 := by decide
theorem test_font_last_row : Memory.read [] 0x4F = 0x80 := by decide

/-! ## Witnesses: for each statement with hypotheses, a concrete state and operands that meet all of them together -/

/-- `op` at PC = 0xFFE, the last address a word can be fetched from. -/
def atTop (op : Nat) (s : State) : State := State.withFetchWord { s with pc := 0xFFE } 16 op

/-- All twelve stack entries in use. -/
def fullStack : State := { State.reset with sp := 12 }

/-- A halted core. -/
def haltedState : State := { State.reset with rs := .halted, hr := .stackOverflow }

theorem witness_DecodeOfEncodeIsTheInstruction :
    (Instr.sys 0xFFF).wf = true ∧ (Instr.drw 15 15 15).wf = true ∧ (Instr.ldVxMem 15).wf = true := by decide
theorem witness_EncodeOfDecodeIsTheWord : decodeWord 0xFF65 = .ok (.ldVxMem 15) := by decide

theorem witness_StepRunsTheDecodedInstruction :
    (atTop 0x600A State.reset).rs = .running ∧ (atTop 0x600A State.reset).pc.toNat ≤ 0xFFE ∧
    (0x600A : Word).toNat = ((atTop 0x600A State.reset).mem.read (atTop 0x600A State.reset).pc.toNat).toNat * 256 +
      ((atTop 0x600A State.reset).mem.read ((atTop 0x600A State.reset).pc.toNat + 1)).toNat ∧
    decodeWord 0x600A = .ok (.ldImm 0 0x0A) := by decide
theorem witness_StepCountsUnrecognizedWords :
    (atTop 0x8008 State.reset).rs = .running ∧ (atTop 0x8008 State.reset).pc.toNat ≤ 0xFFE ∧
    decodeWord (fetchWord (atTop 0x8008 State.reset)) = .error .aluNibble8 := by decide
theorem witness_FetchAboveMemoryIsFatal :
    State.rs { State.reset with pc := 0xFFF } = .running ∧ (State.pc { State.reset with pc := 0xFFF }).toNat > 0xFFE := by decide
theorem witness_NoStepUnlessRunning :
    State.rs { State.reset with rs := .paused } = .paused ∧ haltedState.rs = .halted := by decide
theorem witness_EveryStepFromRunningCompletes : State.reset.rs = .running := by decide
theorem witness_FatalStepIsPrecise_inside :
    ∃ t, step (State.reset.withFetchWord 16 0x00EE) = .next t ∧ t.rs = .halted ∧ t.hr = .stackUnderflow :=
  ⟨_, rfl, by decide⟩
theorem witness_FatalStepIsPrecise_fetch :
    ∃ t, step { State.reset with pc := 0xFFF } = .next t ∧ t.rs = .halted ∧ t.hr = .fetchOutOfRange := ⟨_, rfl, by decide⟩

theorem witness_CallPushesTheReturnAddress :
    (State.sp { State.reset with sp := 11 }).val < 12 ∧ fullStack.sp.val = 12 := by decide
theorem witness_RetPopsTheReturnAddress : fullStack.sp.val = (11 : Fin 12).val + 1 ∧ State.reset.sp.val = 0 := by decide

/-- CALL 0x300 at 0x200 and RET at 0x300, with one entry free. -/
def callReturn : State := { start [] 0 [(0x200, 0x23), (0x301, 0xEE)] with sp := 11 }

theorem witness_CallThenReturnComesBack :
    callReturn.rs = .running ∧ callReturn.pc.toNat ≤ 0xFFE ∧ callReturn.sp.val < 12 ∧ (0x300 : BitVec 12).toNat ≤ 0xFFE ∧
    fetchWord callReturn = encode (.call 0x300) ∧
    wordOfBytes (callReturn.mem.read (0x300 : BitVec 12).toNat) (callReturn.mem.read ((0x300 : BitVec 12).toNat + 1)) =
      encode .ret := by decide
theorem witness_SkipsAdvanceByFourOrTwo_taken :
    (atTop 0x3000 State.reset).rs = .running ∧ (atTop 0x3000 State.reset).pc.toNat ≤ 0xFFE ∧
    decodeWord (fetchWord (atTop 0x3000 State.reset)) = .ok (.seImm 0 0) ∧
    skipCondition (atTop 0x3000 State.reset) (.seImm 0 0) = some true := by decide
theorem witness_SkipsAdvanceByFourOrTwo_not_taken :
    (atTop 0xE09E State.reset).rs = .running ∧ (atTop 0xE09E State.reset).pc.toNat ≤ 0xFFE ∧
    decodeWord (fetchWord (atTop 0xE09E State.reset)) = .ok (.skp 0) ∧
    skipCondition (atTop 0xE09E State.reset) (.skp 0) = some false := by decide

/-- For AddSetsCarry, SubtractsSetNoBorrow, ShiftsSetTheBitShiftedOut and WriteOrderMattersOnlyForVF. -/
theorem witness_destination_is_not_VF : (14 : Reg) ≠ vF := by decide
/-- For RandomIsADrawAndNN: the two values of NN at which its clauses meet. -/
theorem witness_RandomIsADrawAndNN : (0 : Byte) = 0 ∧ (1 : Byte) ≠ 0 := by decide

theorem witness_BcdStoresThreeDigits : (start [] 0xFFD []).mem.wf ∧ (start [] 0xFFD []).i.toNat ≤ 0xFFD := by decide
theorem witness_DumpStoresV0ToVx : (start [] 0xFF0 []).mem.wf ∧ (start [] 0xFF0 []).i.toNat + (15 : Reg).val ≤ 0xFFF := by decide
theorem witness_LoadFillsV0ToVx : (start [] 0xFFF []).i.toNat + (0 : Reg).val ≤ 0xFFF ∧ (0 : Reg) < 15 := by decide
theorem witness_AccessAboveMemoryIsFatal :
    (start [] 0xFFE []).i.toNat + 2 > 0xFFF ∧ (start [] 0xFF1 []).i.toNat + (15 : Reg).val > 0xFFF ∧
    min (2 : BitVec 4).toNat (32 - ((start [(0, 30)] 0xFFF []).reg 0).toNat % 32) = 2 ∧
    (start [(0, 30)] 0xFFF []).i.toNat + 2 - 1 > 0xFFF := by decide
theorem witness_DumpThenLoadRestores :
    (start [(0, 7)] 0xFFE []).mem.wf ∧ (start [(0, 7)] 0xFFE []).i.toNat + (1 : Reg).val ≤ 0xFFF ∧
    ∃ t, exec (.ldMemVx 1) (start [(0, 7)] 0xFFE []) = .next t ∧ (t.setReg 0 9).mem = t.mem ∧ (t.setReg 0 9).i = t.i :=
  ⟨by decide, by decide, _, rfl, by decide⟩

/-- FX55 over the next instruction, and FX33 over its last byte and the byte after it. -/
theorem witness_StoredBytesAreFetched :
    (start [] 0x200 []).mem.wf ∧ (start [] 0x200 []).i.toNat + (15 : Reg).val ≤ 0xFFF ∧
    (start [] 0x200 []).i.toNat + (1 : Reg).val = (start [] 0x200 []).pc.toNat + 1 ∧
    (start [] 0x201 []).i.toNat ≤ 0xFFD ∧ (start [] 0x201 []).pc.toNat + 1 = (start [] 0x201 []).i.toNat := by decide

/-- A sprite of one row, 0x80, at the last byte of memory, on a cell that is on. -/
def collide : State := { start [] 0xFFF [(0xFFF, 0x80)] with fb := State.reset.fb.toggle 0 0 }

theorem witness_DrawXorsTheClippedSprite :
    collide.i.toNat + min (1 : BitVec 4).toNat (32 - (collide.reg 1).toNat % 32) - 1 ≤ 0xFFF ∧
    spriteBit collide 0 1 1 0 0 = true ∧ collide.fb.pixel 0 0 = true := by decide
/-- The clause of a draw without collision, met by a sprite of no rows. -/
theorem witness_DrawXorsTheClippedSprite_no_hit :
    min (0 : BitVec 4).toNat (32 - (collide.reg 1).toNat % 32) = 0 ∧
    ∀ cx cy, spriteBit collide 0 1 0 cx cy = true → collide.fb.pixel cx cy = false := by
  refine ⟨by decide, fun cx cy h => absurd h ?_⟩
  simp only [spriteBit, spriteBitFrom, Bool.and_eq_true, decide_eq_true_eq, show (0 : BitVec 4).toNat = 0 from rfl]
  omega
theorem witness_DrawTwiceRestoresTheScreen :
    (0 : Reg) ≠ vF ∧ (1 : Reg) ≠ vF ∧ collide.i.toNat + min (1 : BitVec 4).toNat (32 - (collide.reg 1).toNat % 32) - 1 ≤ 0xFFF ∧
    min (0 : BitVec 4).toNat (32 - (collide.reg 1).toNat % 32) = 0 := by decide

theorem witness_KeySkipsReadTheKeypad :
    ((start [(1, 15)] 0 []).reg 1).toNat = (15 : Key).val ∧ ((start [(1, 16)] 0 []).reg 1).toNat > 0x0F := by decide
theorem witness_KeyReadCommitsOnRelease :
    State.ak { keyState [] with ak := some 15 } = some 15 ∧ (keyState []).keys[(15 : Key)] = false := by decide
theorem witness_KeyReadWaitsWithoutProgress :
    ((keyState []).ak = none ∧ ∀ k : Key, (keyState []).keys[k] = false) ∧
    ((keyState [15]).ak = none ∧ (keyState [15]).keys[(15 : Key)] = true ∧ ∀ j : Key, j < 15 → (keyState [15]).keys[j] = false) ∧
    (State.ak { keyState [0] with ak := some 0 } = some 0 ∧ (keyState [0]).keys[(0 : Key)] = true) := by decide

theorem witness_CommandsFollowTheTable : haltedState.rs = .halted ∧ State.reset.rs ≠ .halted := by decide
theorem witness_HostReadsAndWritesItsPorts : 31 * 64 + 63 < 2048 ∧ 63 < 64 := by decide
theorem witness_LoadInitialisesTheCore : (List.replicate 3584 (0xFF : Byte)).length ≤ 3584 := by
  rw [List.length_replicate]
theorem witness_LoadFailsOnABadImage :
    (List.replicate 3585 (0 : Byte)).length > 3584 ∧ ([] : List Byte).length ≤ 3584 := by
  refine ⟨?_, by decide⟩
  rw [List.length_replicate]
  decide

theorem witness_StepKeepsTheInvariant : StateInv State.reset ∧ ∃ t, step State.reset = .next t := ⟨by decide, _, rfl⟩
theorem witness_EveryReachableStateMeetsTheInvariant :
    (StateInv haltedState ∧ ∃ t, perform (.load (some [])) haltedState = .next t) ∧
    Reachable State.reset ∧ Reachable (tick State.reset) :=
  ⟨⟨by decide, _, rfl⟩, ⟨[], rfl⟩, ⟨[.tick], rfl⟩⟩
theorem witness_RunStateChangesOnlyAsListed :
    (∃ t, perform (.load (some [])) haltedState = .next t ∧ t.rs ≠ haltedState.rs) ∧
    (∃ t, perform (.command .pause) State.reset = .next t ∧ t.rs ≠ State.reset.rs) ∧
    (∃ t, perform (.command .resume) { State.reset with rs := .paused } = .next t ∧ t.rs ≠ .paused) ∧
    (∃ t, perform .step { State.reset with pc := 0xFFF } = .next t ∧ t.rs ≠ .running) ∧
    (∃ t, perform (.command .halt) State.reset = .next t ∧ t.rs ≠ State.reset.rs) :=
  ⟨⟨_, rfl, by decide⟩, ⟨_, rfl, by decide⟩, ⟨_, rfl, by decide⟩, ⟨_, rfl, by decide⟩, ⟨_, rfl, by decide⟩⟩
theorem witness_HaltedIsTerminal :
    haltedState.rs = .halted ∧ (∀ image, Event.load image ∉ [Event.tick, .command .resume]) ∧
    ∃ t, schedule [.tick, .command .resume] haltedState = .next t :=
  ⟨by decide, fun _ => by simp, _, rfl⟩
theorem witness_ParkedIsAFixpoint : Parked (State.reset.withFetchWord 16 0x1200) := by decide

theorem witness_RegistersWrittenOnlyAsNamed :
    (∃ t, exec (.ldImm 15 1) State.reset = .next t ∧ t.reg 15 ≠ State.reset.reg 15) ∧
    (∃ t, exec (.subReg 0 1) State.reset = .next t ∧ t.reg vF ≠ State.reset.reg vF) :=
  ⟨⟨_, rfl, by decide⟩, ⟨_, rfl, by decide⟩⟩
theorem witness_MemoryWrittenOnlyByTwoInstructions :
    (start [(1, 7)] 0xFFD []).mem.wf ∧
    (∃ t, exec (.ldB 1) (start [(1, 7)] 0xFFD []) = .next t ∧ t.mem.read 0xFFF ≠ (start [(1, 7)] 0xFFD []).mem.read 0xFFF) ∧
    (∃ t, exec (.ldMemVx 1) (start [(1, 7)] 0xFFE []) = .next t ∧ t.mem.read 0xFFF ≠ (start [(1, 7)] 0xFFE []).mem.read 0xFFF) :=
  ⟨by decide, ⟨_, rfl, by decide⟩, ⟨_, rfl, by decide⟩⟩
theorem witness_StackAndIndexWriters :
    (∃ t, exec (.call 0x300) State.reset = .next t ∧ t.stack ≠ State.reset.stack ∧ t.sp ≠ State.reset.sp) ∧
    (∃ t, exec .ret fullStack = .next t ∧ t.sp ≠ fullStack.sp) ∧
    (∃ t, exec (.addI 0) (start [(0, 1)] 0 []) = .next t ∧ t.i ≠ 0) :=
  ⟨⟨_, rfl, by decide⟩, ⟨_, rfl, by decide⟩, ⟨_, rfl, by decide⟩⟩
theorem witness_DisplayTimerAndKeyWriters :
    (∃ t, exec .cls collide = .next t ∧ t.fb.pixel 0 0 ≠ collide.fb.pixel 0 0 ∧ t.dirty ≠ collide.dirty) ∧
    (∃ t, exec (.ldDtVx 1) (keyState [3]) = .next t ∧ t.dt ≠ (keyState [3]).dt) ∧
    (∃ t, exec (.ldStVx 1) (keyState [3]) = .next t ∧ t.st ≠ (keyState [3]).st) ∧
    (∃ t, exec (.ldVxK 1) (keyState [3]) = .next t ∧ t.ak ≠ (keyState [3]).ak) :=
  ⟨⟨_, rfl, by decide⟩, ⟨_, rfl, by decide⟩, ⟨_, rfl, by decide⟩, ⟨_, rfl, by decide⟩⟩
theorem witness_DiagnosticsAreReadByNoInstruction :
    State.reset.rs = .running ∧ (∃ t, exec (.ldStVx 1) State.reset = .next t) ∧
    (∃ t, exec .cls State.reset = .next t ∧ t.rs = .running) ∧
    (∃ t, exec (.drw 0 1 1) (start [] 0x1000 []) = .next t ∧ t.rs = .halted) :=
  ⟨rfl, ⟨_, rfl⟩, ⟨_, rfl, rfl⟩, ⟨_, rfl, by decide⟩⟩
theorem witness_StaleStackEntriesAreUnread :
    (∃ t, exec .ret { State.reset with sp := 1 } = .next t) ∧
    ∀ k : Fin 12, k.val < 1 → (State.reset.stack.set 1 0x300)[k] = State.reset.stack[k] :=
  ⟨⟨_, rfl⟩, by decide⟩

end Sys2Proof.Tests
end

section
namespace Sys2Proof.Machine

/-- The word a step fetches, as a number: big-endian (20_memory.md R39). -/
theorem toNat_fetchWord (s : State) :
    (fetchWord s).toNat = (s.mem.read s.pc.toNat).toNat * 256 + (s.mem.read (s.pc.toNat + 1)).toNat :=
  toNat_wordOfBytes _ _

/-- In Running, with its two bytes in memory, a word that decodes runs as its instruction after the advance
(40_step.md R71 to R73). -/
theorem step_of_decodeWord_ok {s : State} {i : Instr} (hrun : s.rs = .running) (hpc : ¬ FetchOutOfRange s)
    (hdec : decodeWord (fetchWord s) = .ok i) : step s = exec i (advance (fetchWord s) s) := by
  simp only [step, hrun, runStep, if_neg hpc, hdec]

/-- Settles O6: the two bytes determine the word, so `op` is the word the step fetches. -/
theorem stepRunsTheDecodedInstruction : Obligations.StepRunsTheDecodedInstruction := by
  intro s op i hrun hpc hbytes hdec
  obtain rfl : op = fetchWord s := BitVec.eq_of_toNat_eq (hbytes.trans (toNat_fetchWord s).symm)
  exact step_of_decodeWord_ok hrun (Nat.not_lt.mpr hpc) hdec

end Sys2Proof.Machine
end

section
namespace Sys2Proof.Machine

/-- A write of PC changes PC alone. -/
theorem changesOnly_setPc (s : State) (a : Word) : ChangesOnly [.pc] s (s.setPc a) := by
  intro e he
  cases e with
  | pc => exact absurd List.mem_cons_self he
  | v | mem => exact fun _ => rfl
  | _ => rfl

/-- The target of JP V0, NNN as a number: the sum wraps at 16 bits only (41_control.md R81). -/
theorem toNat_offsetTarget (s : State) (nnn : BitVec 12) :
    (offsetTarget s nnn).toNat = (nnn.toNat + (s.reg 0).toNat) % 2 ^ 16 := by
  rw [offsetTarget, BitVec.toNat_add, toNat_zext16, BitVec.toNat_setWidth_of_le (by decide)]

/-- Settles O13: each jump is one write of PC, to its target. -/
theorem jumpsGoToTheirTarget : Obligations.JumpsGoToTheirTarget := fun nnn s =>
  ⟨⟨_, rfl, toNat_zext16 nnn, changesOnly_setPc s _⟩, ⟨_, rfl, toNat_offsetTarget s nnn, changesOnly_setPc s _⟩⟩

end Sys2Proof.Machine
end

section
namespace Sys2Proof.Machine

/-! ## Frames compose -/

/-- A longer list of changed elements claims less. -/
theorem ChangesOnly.mono {es fs : List Element} {s t : State} (h : ChangesOnly es s t) (hsub : es ⊆ fs) : ChangesOnly fs s t :=
  fun e he => h e fun hes => he (hsub hes)

theorem Element.Same.trans {e : Element} {s t u : State} (hst : e.Same s t) (htu : e.Same t u) : e.Same s u := by
  cases e with
  | v | mem => exact fun a => (htu a).trans (hst a)
  | _ => exact Eq.trans htu hst

theorem ChangesOnly.trans {es : List Element} {s t u : State} (hst : ChangesOnly es s t) (htu : ChangesOnly es t u) :
    ChangesOnly es s u :=
  fun e he => (hst e he).trans (htu e he)

/-- The advance of a step changes PC and CI alone (40_step.md R70, R71). -/
theorem changesOnly_advance (op : Word) (s : State) : ChangesOnly [.pc, .ci] s (advance op s) := by
  intro e he
  cases e with
  | pc | ci => simp at he
  | v | mem => exact fun _ => rfl
  | _ => rfl

/-! ## Skips -/

/-- The advance keeps the registers and the keypad, which are all a skip condition reads. -/
@[simp] theorem skipCondition_advance (op : Word) (s : State) (i : Instr) :
    skipCondition (advance op s) i = skipCondition s i := by
  cases i <;> rfl

/-- An instruction whose skip condition has a value completes, with one write of PC that depends on that value alone
(42_skip.md R83). -/
theorem completes_of_skipCondition {s : State} {i : Instr} {c : Bool} (h : skipCondition s i = some c) :
    Completes i s fun t => t.pc = (if c then s.pc + 2 else s.pc) ∧ ChangesOnly [.pc] s t := by
  refine ⟨_, exec_of_skipCondition h, ?_⟩
  rw [skipIf_eq]
  exact ⟨rfl, changesOnly_setPc s _⟩

/-- From an address a word can be fetched at, the advance and a skip together move PC by 4 or by 2: neither wraps. -/
theorem toNat_pc_advance_skip {pc : Word} (hpc : pc.toNat ≤ 0xFFE) (c : Bool) :
    (if c then pc + 2 + 2 else pc + 2).toNat = pc.toNat + (if c then 4 else 2) := by
  cases c
  · simp only [Bool.false_eq_true, if_false]
    bv_omega
  · simp only [if_true]
    bv_omega

/-- Settles O19: the step is the advance and then the skip, on the condition as it was before the advance. -/
theorem skipsAdvanceByFourOrTwo : Obligations.SkipsAdvanceByFourOrTwo := by
  intro s i c hrun hpc hdec hcond
  obtain ⟨t, hexec, htpc, hframe⟩ := completes_of_skipCondition ((skipCondition_advance (fetchWord s) s i).trans hcond)
  have hstep : step s = .next t := (step_of_decodeWord_ok hrun (Nat.not_lt.mpr hpc) hdec).trans hexec
  have hkeep : ChangesOnly [.pc, .ci] s t := (changesOnly_advance (fetchWord s) s).trans (hframe.mono (by simp))
  exact ⟨t, hstep, htpc ▸ toNat_pc_advance_skip hpc c, hkeep⟩

/-- Settles O17: the two conditions are `V[X] == NN` and its negation. -/
theorem skipsOnAnImmediate : Obligations.SkipsOnAnImmediate := by
  intro x nn s
  have hse := completes_of_skipCondition (s := s) (i := .seImm x nn) rfl
  have hsne := completes_of_skipCondition (s := s) (i := .sneImm x nn) rfl
  simp only [beq_iff_eq] at hse
  simp only [bne_iff_ne, ite_not] at hsne
  exact ⟨hse, hsne⟩

end Sys2Proof.Machine
end

section
namespace Sys2Proof.Machine

/-! ## Writes of one register -/

/-- A register write keeps the other registers, VF included unless it is the destination. -/
theorem keepsRegs_setReg (s : State) (x : Reg) (b : Byte) : KeepsRegs [x] s (s.setReg x b) :=
  fun _ hr => State.setReg_reg_ne s (List.ne_of_not_mem_cons hr)

/-- A register write changes the registers alone. -/
theorem changesOnly_setReg (s : State) (x : Reg) (b : Byte) : ChangesOnly [.v] s (s.setReg x b) := by
  intro e he
  cases e with
  | v => exact absurd List.mem_cons_self he
  | mem => exact fun _ => rfl
  | _ => rfl

theorem Completes.imp {i : Instr} {s : State} {P Q : State → Prop} (h : Completes i s P) (hPQ : ∀ t, P t → Q t) :
    Completes i s Q := by
  obtain ⟨t, hexec, hP⟩ := h
  exact ⟨t, hexec, hPQ t hP⟩

/-- An instruction that is one write of a register, without a flag, completes with that register changed alone
(43_alu.md R89, R91 to R94). -/
theorem completes_of_setReg {i : Instr} {s : State} {x : Reg} {b : Byte} (h : exec i s = .next (s.setReg x b)) :
    Completes i s fun t => t.reg x = b ∧ KeepsRegs [x] s t ∧ ChangesOnly [.v] s t :=
  ⟨_, h, State.setReg_reg_self s x b, keepsRegs_setReg s x b, changesOnly_setReg s x b⟩

/-- Settles O20: LD Vx, NN is one write of V[X]. -/
theorem loadImmediateWritesVx : Obligations.LoadImmediateWritesVx := fun _ _ _ => completes_of_setReg rfl

/-- Settles O22: each of the four is one write of V[X], and a bit of the value written is the operation on the operands' bits. -/
theorem logicWritesVxAlone : Obligations.LogicWritesVxAlone := by
  intro x y s
  refine ⟨completes_of_setReg rfl, (completes_of_setReg rfl).imp ?or, (completes_of_setReg rfl).imp ?and,
    (completes_of_setReg rfl).imp ?xor⟩
  case or => exact fun t ⟨hval, hframe⟩ => ⟨fun k => hval ▸ BitVec.getLsbD_or, hframe⟩
  case and => exact fun t ⟨hval, hframe⟩ => ⟨fun k => hval ▸ BitVec.getLsbD_and, hframe⟩
  case xor => exact fun t ⟨hval, hframe⟩ => ⟨fun k => hval ▸ BitVec.getLsbD_xor, hframe⟩

end Sys2Proof.Machine
end

section
namespace Sys2Proof.Machine

/-! ## Writes of I -/

/-- A write of I changes I alone. -/
theorem changesOnly_setIndex (s : State) (a : Word) : ChangesOnly [.i] s (s.setIndex a) := by
  intro e he
  cases e with
  | i => exact absurd List.mem_cons_self he
  | v | mem => exact fun _ => rfl
  | _ => rfl

/-- An instruction that is one write of I completes with I changed alone (44_index_memory.md R101 to R103). -/
theorem completes_of_setIndex {i : Instr} {s : State} {a : Word} (h : exec i s = .next (s.setIndex a)) :
    Completes i s fun t => t.i = a ∧ ChangesOnly [.i] s t :=
  ⟨_, h, State.setIndex_i s a, changesOnly_setIndex s a⟩

/-- Settles O28: LD I, NNN is one write of I, and extending NNN to 16 bits keeps its value. -/
theorem loadIndexWritesI : Obligations.LoadIndexWritesI := fun nnn _ =>
  (completes_of_setIndex rfl).imp fun _ ⟨hval, hframe⟩ => ⟨hval ▸ toNat_zext16 nnn, hframe⟩

end Sys2Proof.Machine
end

section
namespace Sys2Proof.Machine

/-! ## Writes of the display -/

/-- A write of the display changes the framebuffer and DIRTY alone. -/
theorem changesOnly_setDisplay (s : State) (f : Framebuffer) : ChangesOnly [.fb, .dirty] s (s.setDisplay f) := by
  intro e he
  cases e with
  | fb | dirty => simp at he
  | v | mem => exact fun _ => rfl
  | _ => rfl

/-- CLS is one write of the display, with the clear framebuffer (45_display.md R107). -/
theorem exec_cls (s : State) : exec .cls s = .next (s.setDisplay Framebuffer.clear) := rfl

/-- Settles O36: every pixel of the clear framebuffer reads off, and a write of the display sets DIRTY. -/
theorem clearTurnsEveryCellOff : Obligations.ClearTurnsEveryCellOff := fun s =>
  ⟨_, exec_cls s, fun x y _ _ => Framebuffer.pixel_clear x y, State.setDisplay_dirty s _, changesOnly_setDisplay s _⟩

end Sys2Proof.Machine
end

section
namespace Sys2Proof.Machine

/-! ## The host's tick -/

/-- A tick changes the two timers alone (60_exceptions.md R123). -/
theorem changesOnly_tick (s : State) : ChangesOnly [.dt, .st] s (tick s) := by
  intro e he
  cases e with
  | dt | st => simp at he
  | v | mem => exact fun _ => rfl
  | _ => rfl

/-- Settles O43: a tick puts each timer through `countDown`, whatever the run-state, and `countDown` is the subtraction of one
that stops at zero. -/
theorem tickCountsBothTimersDown : Obligations.TickCountsBothTimersDown := fun s =>
  ⟨tick s, rfl, toNat_countDown s.dt, toNat_countDown s.st, changesOnly_tick s⟩

end Sys2Proof.Machine
end

section
namespace Sys2Proof

/-! ## Decoding a word of the encoder -/

theorem Instr.wf_sys {nnn : BitVec 12} : (Instr.sys nnn).wf = true ↔ nnn ≠ 0x0E0 ∧ nnn ≠ 0x0EE := by
  simp only [Instr.wf, Bool.and_eq_true, bne_iff_ne]

/-- Family 0 reads SYS where neither CLS nor RET has the word (30_encoding.md R59). -/
theorem decode0_of_ne {f : Fields} (hcls : f.nnn ≠ 0x0E0) (hret : f.nnn ≠ 0x0EE) : decode0 f = .sys f.nnn := by
  rw [decode0, if_neg hcls, if_neg hret]

/-- The decoder on the encoder's word, whatever `STRICT_LOW_NIBBLE` is: the fields of the word's format are the operands, and
the family of its top nibble selects the constructor. -/
theorem decodeWith_encode (strict : Bool) {i : Instr} (hwf : i.wf = true) : decodeWith strict (encode i) = .ok i := by
  cases i with
  | sys nnn =>
    obtain ⟨hcls, hret⟩ := Instr.wf_sys.mp hwf
    obtain ⟨ht, hnnn⟩ := fieldsOf_wordNNN 0x0 nnn
    rw [← hnnn] at hcls hret
    rw [decodeWith, encode, decodeFields, if_pos ht, decode0_of_ne hcls hret, hnnn]
  | cls | ret => cases strict <;> rfl
  | jp | call | ldI | jpV0 => simp [decodeWith, encode, fieldsOf_wordNNN, decodeFields]
  | seImm | sneImm | ldImm | addImm | rnd => simp [decodeWith, encode, fieldsOf_wordXNN, decodeFields]
  | seReg | sneReg | drw => simp [decodeWith, encode, fieldsOf_wordXYN, decodeFields, decode5, decode9]
  | ldReg | orReg | andReg | xorReg | addReg | subReg | shr | subnReg | shl =>
    simp [decodeWith, encode, fieldsOf_wordXYN, decodeFields, decode8]
  | skp | sknp => simp [decodeWith, encode, fieldsOf_wordXNN, decodeFields, decodeE]
  | ldVxDt | ldVxK | ldDtVx | ldStVx | addI | ldF | ldB | ldMemVx | ldVxMem =>
    simp [decodeWith, encode, fieldsOf_wordXNN, decodeFields, decodeF]

/-- The decoder on the encoder's two bytes takes those two alone. -/
theorem decode_encodeBytes {i : Instr} (hwf : i.wf = true) (rest : List Byte) :
    decode (encodeBytes i ++ rest) = .ok (i, rest) := by
  have hword : decodeWord (wordOfBytes (highByte (encode i)) (lowByte (encode i))) = .ok i := by
    rw [wordOfBytes_high_low]
    exact decodeWith_encode _ hwf
  simp only [encodeBytes, List.cons_append, List.nil_append, decode, hword]

/-- Settles O2: by the instruction's format, and the bytes by putting the word together again. -/
theorem decodeOfEncodeIsTheInstruction : Obligations.DecodeOfEncodeIsTheInstruction := fun _ hwf =>
  ⟨fun strict => decodeWith_encode strict hwf, decode_encodeBytes hwf⟩

/-- Settles O1: each word, read from its digits. -/
theorem decodesWordsOfTheSpec : Obligations.DecodesWordsOfTheSpec := by
  unfold Obligations.DecodesWordsOfTheSpec
  decide

/-- Settles O5: the low nibble is read only where `STRICT_LOW_NIBBLE` is true. -/
theorem lowNibbleMattersOnlyWhenStrict : Obligations.LowNibbleMattersOnlyWhenStrict := by
  intro x y n
  simp only [decodeWith, decodeFields, fieldsOf_wordXYN, decode5, decode9]
  by_cases hn : n = 0 <;> simp [hn]

/-! ## Encoding what a word decodes to, family by family -/

/-- In a strict family 5 the low nibble of a skip is 0. -/
theorem encode_of_decode5 {f : Fields} {i : Instr} (h : decode5 true f = .ok i) :
    encode i = wordXYN 0x5 f.x f.y f.n ∧ i.wf = true := by
  unfold decode5 at h
  split at h <;> cases h
  simp_all [encode, Instr.wf]

theorem encode_of_decode9 {f : Fields} {i : Instr} (h : decode9 true f = .ok i) :
    encode i = wordXYN 0x9 f.x f.y f.n ∧ i.wf = true := by
  unfold decode9 at h
  split at h <;> cases h
  simp_all [encode, Instr.wf]

/-- Family 0 has a word for each of its three readings, and SYS is the word of neither CLS nor RET. -/
theorem encode_decode0 (f : Fields) : encode (decode0 f) = wordNNN 0x0 f.nnn ∧ (decode0 f).wf = true := by
  by_cases hcls : f.nnn = 0x0E0
  · rw [decode0, if_pos hcls, hcls]
    exact ⟨rfl, rfl⟩
  · by_cases hret : f.nnn = 0x0EE
    · rw [decode0, if_neg hcls, if_pos hret, hret]
      exact ⟨rfl, rfl⟩
    · rw [decode0_of_ne hcls hret]
      exact ⟨rfl, Instr.wf_sys.mpr ⟨hcls, hret⟩⟩

theorem encode_of_decode8 {f : Fields} {i : Instr} (h : decode8 f = .ok i) :
    encode i = wordXYN 0x8 f.x f.y f.n ∧ i.wf = true := by
  unfold decode8 at h
  split_ifs at h <;> cases h <;> simp_all [encode, Instr.wf]

theorem encode_of_decodeE {f : Fields} {i : Instr} (h : decodeE f = .ok i) :
    encode i = wordXNN 0xE f.x f.nn ∧ i.wf = true := by
  unfold decodeE at h
  split_ifs at h <;> cases h <;> simp_all [encode, Instr.wf]

theorem encode_of_decodeF {f : Fields} {i : Instr} (h : decodeF f = .ok i) :
    encode i = wordXNN 0xF f.x f.nn ∧ i.wf = true := by
  unfold decodeF at h
  split_ifs at h <;> cases h <;> simp_all [encode, Instr.wf]

/-- With `STRICT_LOW_NIBBLE` true the fields a word decodes by are those of its instruction's format. -/
theorem encode_of_decodeFields {f : Fields} {i : Instr} (h : decodeFields true f = .ok i) :
    (encode i = wordNNN f.t f.nnn ∨ encode i = wordXNN f.t f.x f.nn ∨ encode i = wordXYN f.t f.x f.y f.n) ∧ i.wf = true := by
  rcases nibble_cases f.t with ht | ht | ht | ht | ht | ht | ht | ht | ht | ht | ht | ht | ht | ht | ht | ht
  all_goals
    rw [ht]
    simp only [decodeFields, ht, BitVec.reduceEq, if_true, if_false] at h
  · cases h; exact (encode_decode0 f).imp_left .inl
  · cases h; exact ⟨.inl rfl, rfl⟩
  · cases h; exact ⟨.inl rfl, rfl⟩
  · cases h; exact ⟨.inr (.inl rfl), rfl⟩
  · cases h; exact ⟨.inr (.inl rfl), rfl⟩
  · exact (encode_of_decode5 h).imp_left fun hw => .inr (.inr hw)
  · cases h; exact ⟨.inr (.inl rfl), rfl⟩
  · cases h; exact ⟨.inr (.inl rfl), rfl⟩
  · exact (encode_of_decode8 h).imp_left fun hw => .inr (.inr hw)
  · exact (encode_of_decode9 h).imp_left fun hw => .inr (.inr hw)
  · cases h; exact ⟨.inl rfl, rfl⟩
  · cases h; exact ⟨.inl rfl, rfl⟩
  · cases h; exact ⟨.inr (.inl rfl), rfl⟩
  · cases h; exact ⟨.inr (.inr rfl), rfl⟩
  · exact (encode_of_decodeE h).imp_left fun hw => .inr (.inl hw)
  · exact (encode_of_decodeF h).imp_left fun hw => .inr (.inl hw)

/-- Settles O3: a word is put together again from the fields of its format. -/
theorem encodeOfDecodeIsTheWord : Obligations.EncodeOfDecodeIsTheWord := by
  intro op i h
  obtain ⟨hw | hw | hw, hwf⟩ := encode_of_decodeFields (f := fieldsOf op) h
  · exact ⟨hw.trans (wordNNN_fields op), hwf⟩
  · exact ⟨hw.trans (wordXNN_fields op), hwf⟩
  · exact ⟨hw.trans (wordXYN_fields op), hwf⟩

/-! ## The words no family has -/

theorem toNat_nibble_eq_zero {n : BitVec 4} : n.toNat = 0 ↔ n = 0#4 := (BitVec.toNat_eq (y := 0)).symm

theorem decode5_rejects_iff {f : Fields} : (∃ r, decode5 true f = .error r) ↔ f.n.toNat ≠ 0 := by
  rw [Ne, toNat_nibble_eq_zero]
  by_cases hn : f.n = 0#4 <;> simp [decode5, hn]

theorem decode9_rejects_iff {f : Fields} : (∃ r, decode9 true f = .error r) ↔ f.n.toNat ≠ 0 := by
  rw [Ne, toNat_nibble_eq_zero]
  by_cases hn : f.n = 0#4 <;> simp [decode9, hn]

theorem decode8_rejects_iff {f : Fields} :
    (∃ r, decode8 f = .error r) ↔ f.n.toNat ∈ [0x8, 0x9, 0xA, 0xB, 0xC, 0xD, 0xF] := by
  rcases nibble_cases f.n with h | h | h | h | h | h | h | h | h | h | h | h | h | h | h | h <;> simp [decode8, h]

theorem decodeE_rejects_iff {f : Fields} : (∃ r, decodeE f = .error r) ↔ f.nn.toNat ∉ [0x9E, 0xA1] := by
  unfold decodeE
  simp only [BitVec.toNat_eq]
  split_ifs <;> simp_all

theorem decodeF_rejects_iff {f : Fields} :
    (∃ r, decodeF f = .error r) ↔ f.nn.toNat ∉ [0x07, 0x0A, 0x15, 0x18, 0x1E, 0x29, 0x33, 0x55, 0x65] := by
  unfold decodeF
  simp only [BitVec.toNat_eq]
  split_ifs <;> simp_all

/-- The words rejected, by the fields: those of 30_encoding.md R65. -/
theorem decodeFields_rejects_iff {f : Fields} : (∃ r, decodeFields true f = .error r) ↔
    ((f.t.toNat = 0x5 ∨ f.t.toNat = 0x9) ∧ f.n.toNat ≠ 0) ∨
    (f.t.toNat = 0x8 ∧ f.n.toNat ∈ [0x8, 0x9, 0xA, 0xB, 0xC, 0xD, 0xF]) ∨
    (f.t.toNat = 0xE ∧ f.nn.toNat ∉ [0x9E, 0xA1]) ∨
    (f.t.toNat = 0xF ∧ f.nn.toNat ∉ [0x07, 0x0A, 0x15, 0x18, 0x1E, 0x29, 0x33, 0x55, 0x65]) := by
  rcases nibble_cases f.t with ht | ht | ht | ht | ht | ht | ht | ht | ht | ht | ht | ht | ht | ht | ht | ht <;>
    simp [decodeFields, ht, decode5_rejects_iff, decode8_rejects_iff, decode9_rejects_iff, decodeE_rejects_iff,
      decodeF_rejects_iff]

/-- Settles O4: the fields the families are selected by are the word's digits. -/
theorem unrecognizedWordsAreExactlyTheListed : Obligations.UnrecognizedWordsAreExactlyTheListed := by
  intro op
  rw [← toNat_fieldsOf_t, ← toNat_fieldsOf_n, ← toNat_fieldsOf_nn]
  exact decodeFields_rejects_iff

end Sys2Proof
end

section
namespace Sys2Proof.Machine

/-! ## What one instruction can write -/

/-- The ways an instruction answers a next state: what each may write, and by which instructions where a claim asks for them. -/
inductive Effect (s : State) : Instr → State → Prop where
  /-- fatal entry (60_exceptions.md R118) -/
  | fatal (i : Instr) (reason : HaltReason) : Effect s i (fatalEntry (s.pc - 2) reason s)
  /-- a write of registers, and for CXNN a draw -/
  | regs (i : Instr) (v : Vector Byte 16) (draws : Nat)
    (h : ∀ r : Reg, v[r] = s.reg r ∨ r ∈ destinations i ∨ (r = vF ∧ setsFlag i = true)) :
    Effect s i { s with v := v, draws := draws }
  /-- a skip, a jump or the wait of FX0A -/
  | goto (i : Instr) (a : Word) (h : a = s.pc ∨ a = s.pc + 2 ∨ a = s.pc - 2 ∨ a.toNat ≤ 0x10FE) : Effect s i (s.setPc a)
  | call (nnn : BitVec 12) (h : s.sp.val < Config.stackDepth) :
    Effect s (.call nnn) { s with
      stack := s.stack.set s.sp.val s.pc h
      sp := ⟨s.sp.val + 1, Nat.succ_lt_succ h⟩
      pc := zext16 nnn }
  | ret (k : Fin Config.stackDepth) (h : s.sp.val = k.val + 1) :
    Effect s .ret { s with sp := k.castSucc, pc := s.stack[k] }
  | index (i : Instr) (a : Word) (h : (∃ nnn, i = .ldI nnn) ∨ (∃ x, i = .addI x) ∨ ∃ x, i = .ldF x) :
    Effect s i (s.setIndex a)
  | cls : Effect s .cls (s.setDisplay Framebuffer.clear)
  | draw (x y : Reg) (n : BitVec 4) (b : Byte) (f : Framebuffer) :
    Effect s (.drw x y n) ((s.setReg vF b).setDisplay f)
  /-- a store at I that stays in memory (20_memory.md R45) -/
  | store (i : Instr) (bs : List Byte) (hrange : InRange s.i.toNat bs.length)
    (h : (∃ x, i = .ldB x ∧ bs.length = 3) ∨ ∃ x, i = .ldMemVx x ∧ bs.length = x.val + 1) :
    Effect s i (s.setMem (s.mem.writeBytes s.i.toNat bs))
  | delay (x : Reg) (b : Byte) : Effect s (.ldDtVx x) (s.setDt b)
  | sound (x : Reg) (b : Byte) : Effect s (.ldStVx x) (s.setSt b)
  | await (x : Reg) (k : Key) : Effect s (.ldVxK x) ((s.setAwaited (some k)).setPc (s.pc - 2))
  | commit (x : Reg) (b : Byte) : Effect s (.ldVxK x) ((s.setReg x b).setAwaited none)

/-- A write of a named destination, and the draw counter as it comes. -/
theorem Effect.setReg {s : State} {i : Instr} {x : Reg} (b : Byte) (draws : Nat) (hx : x ∈ destinations i) :
    Effect s i { s.setReg x b with draws := draws } := by
  refine .regs i (s.v.set x b) draws fun r => ?_
  by_cases hr : r = x
  · exact .inr (.inl (hr ▸ hx))
  · exact .inl (State.setReg_reg_ne s hr)

/-- A flag-setting write is of the named destination and VF. -/
theorem Effect.writeRF {s : State} {i : Instr} {x : Reg} {o : Flagged} (hx : x ∈ destinations i) (hf : setsFlag i = true) :
    Effect s i (writeRF true x o s) := by
  refine .regs i (Machine.writeRF true x o s).v s.draws fun r => ?_
  have hreg : (Machine.writeRF true x o s).v[r] = _ := writeRF_true_reg x o s r
  by_cases hr : r = vF
  · exact .inr (.inr ⟨hr, hf⟩)
  · by_cases hrx : r = x
    · exact .inr (.inl (hrx ▸ hx))
    · exact .inl (by simpa [hr, hrx] using hreg)

theorem Effect.skipIf {s : State} {i : Instr} (c : Bool) : Effect s i (skipIf c s) := by
  rw [skipIf_eq]
  cases c
  · exact .goto i _ (.inl rfl)
  · exact .goto i _ (.inr (.inl rfl))

theorem toNat_zext16_le (nnn : BitVec 12) : (zext16 nnn).toNat ≤ 0xFFF := by
  rw [toNat_zext16]
  omega

theorem toNat_offsetTarget_le (s : State) (nnn : BitVec 12) : (offsetTarget s nnn).toNat ≤ 0x10FE := by
  rw [toNat_offsetTarget]
  omega

/-- Every next state an instruction answers is by one of the effects. -/
theorem effect_of_exec {i : Instr} {s t : State} (h : exec i s = .next t) : Effect s i t := by
  cases i with
  | sys => cases h; exact .goto _ s.pc (.inl rfl)
  | cls => cases h; exact .cls
  | jp nnn => cases h; exact .goto _ _ (.inr (.inr (.inr (Nat.le_trans (toNat_zext16_le nnn) (by decide)))))
  | jpV0 nnn => cases h; exact .goto _ _ (.inr (.inr (.inr (toNat_offsetTarget_le s nnn))))
  | seImm | sneImm | seReg | sneReg => cases h; exact .skipIf _
  | ldImm | addImm | ldReg | orReg | andReg | xorReg | ldVxDt | rnd => cases h; exact .setReg _ _ List.mem_cons_self
  | addReg | subReg | shr | subnReg | shl => cases h; exact .writeRF List.mem_cons_self rfl
  | ldI nnn => cases h; exact .index _ _ (.inl ⟨nnn, rfl⟩)
  | addI x => cases h; exact .index _ _ (.inr (.inl ⟨x, rfl⟩))
  | ldF x => cases h; exact .index _ _ (.inr (.inr ⟨x, rfl⟩))
  | ldDtVx => cases h; exact .delay _ _
  | ldStVx => cases h; exact .sound _ _
  | ret =>
    simp only [exec, execRet] at h
    split at h
    · cases h; exact .fatal _ _
    next hsp =>
      cases h
      exact .ret ⟨s.sp.val - 1, by omega⟩ (by simp only; omega)
  | call nnn =>
    simp only [exec, execCall] at h
    split at h
    next hsp => cases h; exact .call nnn hsp
    · cases h; exact .fatal _ _
  | drw x y n =>
    simp only [exec, execDrw] at h
    split at h
    · cases h; exact .draw _ _ _ _ _
    · cases h; exact .fatal _ _
  | skp x =>
    simp only [exec, execSkp] at h
    split at h
    · cases h; exact .skipIf _
    · cases h; exact .fatal _ _
  | sknp x =>
    simp only [exec, execSknp] at h
    split at h
    · cases h; exact .skipIf _
    · cases h; exact .fatal _ _
  | ldVxK x =>
    simp only [exec, execLdVxK] at h
    split at h
    · split at h
      · cases h; exact .await _ _
      · cases h; exact .goto _ _ (.inr (.inr (.inl rfl)))
    · split at h
      · cases h; exact .goto _ _ (.inr (.inr (.inl rfl)))
      · cases h; exact .commit _ _
  | ldB x =>
    simp only [exec, execLdB] at h
    split at h
    next hrange => cases h; exact .store _ _ hrange (.inl ⟨x, rfl, rfl⟩)
    · cases h; exact .fatal _ _
  | ldMemVx x =>
    simp only [exec, execLdMemVx] at h
    split at h
    next hrange =>
      cases h
      rw [← length_regsUpTo s x] at hrange
      exact .store _ _ hrange (.inr ⟨x, rfl, length_regsUpTo s x⟩)
    · cases h; exact .fatal _ _
  | ldVxMem x =>
    simp only [exec, execLdVxMem] at h
    split at h
    · cases h
      refine .regs _ _ _ fun r => ?_
      by_cases hr : r ≤ x
      · exact .inr (.inl (by simp [destinations, hr]))
      · exact .inl (by simp [loadRegs, hr])
    · cases h; exact .fatal _ _


/-! ## Who writes what -/

/-- Settles O55: the effects that write registers are the writes of named destinations and flags, the draw and the commit. -/
theorem registersWrittenOnlyAsNamed : Obligations.RegistersWrittenOnlyAsNamed := by
  intro i s t r hexec hne
  cases effect_of_exec hexec with
  | regs _ v draws h => exact (h r).resolve_left hne
  | draw x y n b f =>
    have hr : r = vF := by_contra fun hr => hne (State.setReg_reg_ne s hr)
    exact .inr ⟨hr, rfl⟩
  | commit x b =>
    have hr : r = x := by_contra fun hr => hne (State.setReg_reg_ne s hr)
    exact .inl (hr ▸ List.mem_cons_self)
  | _ => exact absurd rfl hne

/-- Settles O56: the one effect on memory is the store, which changes no byte outside the bytes stored. -/
theorem memoryWrittenOnlyByTwoInstructions : Obligations.MemoryWrittenOnlyByTwoInstructions := by
  intro i s t a hwf hexec hne
  cases effect_of_exec hexec with
  | store _ bs hrange h =>
    have hin : s.i.toNat ≤ a ∧ a < s.i.toNat + bs.length := by
      by_contra hout
      exact hne ((Memory.read_writeBytes hwf.1 _ bs a).trans (if_neg hout))
    have htop := inRange_iff.mp hrange
    refine ⟨hin.1, by omega, h.imp ?_ ?_⟩
    · exact fun ⟨x, hi, hlen⟩ => ⟨x, hi, by omega⟩
    · exact fun ⟨x, hi, hlen⟩ => ⟨x, hi, by omega⟩
  | _ => exact absurd rfl hne

/-- Settles O57: of the effects, CALL's alone writes the stack, CALL's and RET's SP, and the write of I is its own. -/
theorem stackAndIndexWriters : Obligations.StackAndIndexWriters := by
  intro i s t hexec
  cases effect_of_exec hexec with
  | call nnn => exact ⟨fun _ => ⟨nnn, rfl⟩, fun _ => .inr ⟨nnn, rfl⟩, fun h => absurd rfl h⟩
  | ret => exact ⟨fun h => absurd rfl h, fun _ => .inl rfl, fun h => absurd rfl h⟩
  | index _ a hi => exact ⟨fun h => absurd rfl h, fun h => absurd rfl h, fun _ => hi⟩
  | _ => exact ⟨fun h => absurd rfl h, fun h => absurd rfl h, fun h => absurd rfl h⟩

/-- Settles O58: of the effects, those of CLS and DRW alone write the framebuffer or DIRTY, and both set DIRTY; each timer has one
writer, AK's two effects are of FX0A, and none writes K, CI or UC. -/
theorem displayTimerAndKeyWriters : Obligations.DisplayTimerAndKeyWriters := by
  intro i s t hexec
  cases effect_of_exec hexec <;> simp

end Sys2Proof.Machine
end

section
namespace Sys2Proof.Machine

/-! ## Frames -/

theorem ChangesOnly.refl (es : List Element) (s : State) : ChangesOnly es s s := by
  intro e _
  cases e with
  | v | mem => exact fun _ => rfl
  | _ => rfl

/-- An element that holds what it held need not be listed. -/
theorem ChangesOnly.tail {e : Element} {es : List Element} {s t : State} (h : ChangesOnly (e :: es) s t) (he : e.Same s t) :
    ChangesOnly es s t := by
  intro f hf
  by_cases hfe : f = e
  · exact hfe ▸ he
  · exact h f fun hmem => (List.mem_cons.mp hmem).elim hfe hf

/-- Fatal entry changes PC, RS and HR alone (60_exceptions.md R118). -/
theorem changesOnly_fatalEntry (pc0 : Word) (reason : HaltReason) (s : State) :
    ChangesOnly [.pc, .rs, .hr] s (fatalEntry pc0 reason s) := by
  intro e he
  cases e with
  | pc | rs | hr => simp at he
  | v | mem => exact fun _ => rfl
  | _ => rfl

/-! ## The branches of a step -/

/-- Settles O9: the step looks at RS first. -/
theorem noStepUnlessRunning : Obligations.NoStepUnlessRunning := by
  rintro s (hrs | hrs) <;> simp only [step, hrs]

theorem step_of_fetchOutOfRange {s : State} (hrun : s.rs = .running) (hpc : FetchOutOfRange s) :
    step s = .next (fatalEntry s.pc .fetchOutOfRange s) := by
  simp only [step, hrun, runStep, if_pos hpc, fetchFault_eq]

theorem step_of_decodeWord_error {s : State} {r : Reject} (hrun : s.rs = .running) (hpc : ¬ FetchOutOfRange s)
    (hdec : decodeWord (fetchWord s) = .error r) : step s = .next { advance (fetchWord s) s with uc := s.uc + 1 } := by
  simp only [step, hrun, runStep, if_neg hpc, hdec, unrecognized_eq, advance_uc]

/-- Settles O8: the fatal entry of the fetch is at PC as it stands. -/
theorem fetchAboveMemoryIsFatal : Obligations.FetchAboveMemoryIsFatal := fun s hrun hpc =>
  ⟨_, step_of_fetchOutOfRange hrun (fetchOutOfRange_iff.mpr hpc), rfl, rfl, (changesOnly_fatalEntry s.pc _ s).tail rfl⟩

/-- Settles O7: the no-op is the advance and one count. -/
theorem stepCountsUnrecognizedWords : Obligations.StepCountsUnrecognizedWords := by
  intro s r hrun hpc hdec
  refine ⟨_, step_of_decodeWord_error hrun (Nat.not_lt.mpr hpc) hdec, rfl, rfl, BitVec.toNat_add s.uc 1, fun e he => ?_⟩
  cases e with
  | pc | ci | uc => simp at he
  | v | mem => exact fun _ => rfl
  | _ => rfl

/-- What a step taken in Running answers: the fatal entry of the fetch, that of an instruction, or a state still Running. -/
inductive StepOutcome (s : State) : State → Prop where
  | fetch (hpc : FetchOutOfRange s) : StepOutcome s (fatalEntry s.pc .fetchOutOfRange s)
  | fatal (hpc : ¬ FetchOutOfRange s) (reason : HaltReason) (h : reason.isFatal = true) (hf : reason ≠ .fetchOutOfRange) :
    StepOutcome s (fatalEntry s.pc reason (advance (fetchWord s) s))
  | runs (t : State) (hrs : t.rs = .running) (hhr : t.hr = s.hr) : StepOutcome s t

/-- The instruction's part of a step: PC, taken back by 2, is the PC of the step again. -/
theorem stepOutcome_of_exec {s t : State} {i : Instr} (hrun : s.rs = .running) (hpc : ¬ FetchOutOfRange s)
    (h : exec i (advance (fetchWord s) s) = .next t) : StepOutcome s t := by
  have hout := exec_outcome i (advance (fetchWord s) s)
  rw [h] at hout
  cases hout with
  | fatal reason hreason hf =>
    rw [advance_pc, BitVec.add_sub_cancel]
    exact .fatal hpc reason hreason hf
  | completes t hkept => exact .runs t (hkept.rs.trans hrun) hkept.hr

/-- A step that answers a next state ran in Running, with one of the outcomes. -/
theorem step_outcome {s t : State} (h : step s = .next t) : s.rs = .running ∧ StepOutcome s t := by
  obtain ⟨hrun, ⟨hpc, rfl⟩ | ⟨hpc, i, -, hexec⟩ | ⟨-, r, -, rfl⟩⟩ := step_next_cases h
  · exact ⟨hrun, .fetch hpc⟩
  · exact ⟨hrun, stepOutcome_of_exec hrun hpc hexec⟩
  · exact ⟨hrun, .runs _ hrun rfl⟩

/-- Every instruction answers a next state. -/
theorem exists_exec (i : Instr) (s : State) : ∃ t, exec i s = .next t := by
  have hout := exec_outcome i s
  generalize exec i s = r at hout
  cases hout with
  | fatal => exact ⟨_, rfl⟩
  | completes t => exact ⟨t, rfl⟩

/-- In Running a step answers a next state. -/
theorem exists_step_of_running {s : State} (hrun : s.rs = .running) : ∃ t, step s = .next t := by
  by_cases hpc : FetchOutOfRange s
  · exact ⟨_, step_of_fetchOutOfRange hrun hpc⟩
  · cases hdec : decodeWord (fetchWord s) with
    | error r => exact ⟨_, step_of_decodeWord_error hrun hpc hdec⟩
    | ok i =>
      rw [step_of_decodeWord_ok hrun hpc hdec]
      exact exists_exec i _

/-- After a step RS is Running, with HR as it was, or Halted with a fatal reason. -/
theorem rs_hr_of_step {s t : State} (h : step s = .next t) :
    (t.rs = .running ∧ t.hr = s.hr) ∨ (t.rs = .halted ∧ t.hr.isFatal = true) := by
  cases (step_outcome h).2 with
  | fetch => exact .inr ⟨rfl, rfl⟩
  | fatal _ _ hreason => exact .inr ⟨rfl, hreason⟩
  | runs _ hrs hhr => exact .inl ⟨hrs, hhr⟩

/-- Settles O10: by the outcomes of a step. -/
theorem everyStepFromRunningCompletes : Obligations.EveryStepFromRunningCompletes := by
  intro s hrun
  obtain ⟨t, h⟩ := exists_step_of_running hrun
  exact ⟨t, h, rs_hr_of_step h⟩

/-- Settles O11: of the three outcomes two are fatal entries, one before the advance and one after it. -/
theorem fatalStepIsPrecise : Obligations.FatalStepIsPrecise := by
  intro s t h hhalt
  cases (step_outcome h).2 with
  | fetch hpc =>
    have hpc := fetchOutOfRange_iff.mp hpc
    exact ⟨rfl, ((changesOnly_fatalEntry s.pc _ s).tail rfl).mono (by simp), (if_pos hpc).symm, iff_of_true rfl hpc⟩
  | fatal hpc reason hreason hf =>
    have hpc := mt fetchOutOfRange_iff.mpr hpc
    have hframe : ChangesOnly [.pc, .rs, .hr, .ci] s (fatalEntry s.pc reason (advance (fetchWord s) s)) :=
      ((changesOnly_advance _ s).mono (by simp)).trans ((changesOnly_fatalEntry _ _ _).mono (by simp))
    exact ⟨hreason, hframe.tail rfl, (if_neg hpc).symm, iff_of_false hf hpc⟩
  | runs _ hrs => rw [hrs] at hhalt; cases hhalt

/-! ## Parked at a self-jump -/

/-- An address below 0x1000 is the zero extension of its low twelve bits. -/
theorem zext16_setWidth {a : Word} (h : a.toNat ≤ 0xFFE) : zext16 (a.setWidth 12) = a := by
  apply BitVec.eq_of_toNat_eq
  rw [toNat_zext16, BitVec.toNat_setWidth, Nat.mod_eq_of_lt (by omega)]

/-- The self-jump puts back the PC the advance moved. -/
theorem step_of_parked {s : State} (h : Parked s) : step s = .next { s with ci := fetchWord s } := by
  obtain ⟨hrun, hpc, hword⟩ := h
  have hdec : decodeWord (fetchWord s) = .ok (.jp (s.pc.setWidth 12)) := hword ▸ decodeWith_encode _ (i := .jp _) rfl
  rw [step_of_decodeWord_ok hrun (Nat.not_lt.mpr hpc) hdec]
  show Host.Outcome.next ((advance (fetchWord s) s).setPc (zext16 (s.pc.setWidth 12))) = _
  rw [zext16_setWidth hpc]
  rfl

/-- Settles O54: CI does not change the word fetched, so the core is parked again and the next step writes the same CI. -/
theorem parkedIsAFixpoint : Obligations.ParkedIsAFixpoint := by
  intro s h
  have hagain : Parked { s with ci := fetchWord s } := h
  refine ⟨_, step_of_parked h, rfl, fun e he => ?_, hagain, step_of_parked hagain⟩
  cases e with
  | ci => simp at he
  | v | mem => exact fun _ => rfl
  | _ => rfl

end Sys2Proof.Machine
end

section
namespace Sys2Proof.Machine

/-! ## The host's commands and loads -/

theorem command_of_halted {s : State} (c : Command) (h : s.rs = .halted) : command c s = s := by
  simp only [command, h]

theorem command_none (s : State) : command .none s = s := by
  cases h : s.rs <;> simp only [command, h]

/-- Outside Halted a command sets RS to what it names, the state it is in included (60_exceptions.md R128). -/
theorem command_pause {s : State} (h : s.rs ≠ .halted) : command .pause s = { s with rs := .paused } := by
  cases hrs : s.rs with
  | running => simp only [command, hrs]
  | paused => simp only [command, hrs]; rw [← hrs]
  | halted => exact absurd hrs h

theorem command_resume {s : State} (h : s.rs ≠ .halted) : command .resume s = { s with rs := .running } := by
  cases hrs : s.rs with
  | running => simp only [command, hrs]; rw [← hrs]
  | paused => simp only [command, hrs]
  | halted => exact absurd hrs h

theorem command_halt {s : State} (h : s.rs ≠ .halted) : command .halt s = { s with rs := .halted, hr := .hostHalt } := by
  cases hrs : s.rs with
  | running => simp only [command, hrs]
  | paused => simp only [command, hrs]
  | halted => exact absurd hrs h

theorem changesOnly_rs (s : State) (r : RunState) : ChangesOnly [.rs] s { s with rs := r } := by
  intro e he
  cases e with
  | rs => simp at he
  | v | mem => exact fun _ => rfl
  | _ => rfl

theorem changesOnly_rs_hr (s : State) (r : RunState) (h : HaltReason) :
    ChangesOnly [.rs, .hr] s { s with rs := r, hr := h } := by
  intro e he
  cases e with
  | rs | hr => simp at he
  | v | mem => exact fun _ => rfl
  | _ => rfl

/-- Settles O44: the commands' equations, row by row. -/
theorem commandsFollowTheTable : Obligations.CommandsFollowTheTable := by
  intro s c
  refine ⟨command c s, rfl, fun h => ?_, fun _ hc => ?_, fun h hc => ?_, fun h hc => ?_, fun h hc => ?_⟩
  · rw [command_of_halted c h]
    exact .refl _ s
  · rw [hc, command_none]
    exact .refl _ s
  · rw [hc, command_pause h]
    exact ⟨rfl, changesOnly_rs s _⟩
  · rw [hc, command_resume h]
    exact ⟨rfl, changesOnly_rs s _⟩
  · rw [hc, command_halt h]
    exact ⟨rfl, rfl, changesOnly_rs_hr s _ _⟩

theorem load_of_length_le {image : List Byte} (s : State) (h : image.length ≤ 3584) :
    load (some image) s = .next { State.reset with mem := loadedMemory image, draws := s.draws } :=
  if_neg (Nat.not_lt.mpr h)

theorem load_of_length_gt {image : List Byte} (s : State) (h : image.length > 3584) :
    load (some image) s = .fault .programTooLarge :=
  if_pos h

/-- A load that answers a next state answers the reset state with the image in memory. -/
theorem load_next {image : Option (List Byte)} {s t : State} (h : load image s = .next t) :
    ∃ bytes, image = some bytes ∧ bytes.length ≤ 3584 ∧
      t = { State.reset with mem := loadedMemory bytes, draws := s.draws } := by
  cases image with
  | none => cases h
  | some bytes =>
    by_cases hlen : bytes.length ≤ 3584
    · rw [load_of_length_le s hlen] at h
      cases h
      exact ⟨bytes, rfl, hlen, rfl⟩
    · rw [load_of_length_gt s (by omega)] at h
      cases h

/-- Settles O47: the length decides. -/
theorem loadFailsOnABadImage : Obligations.LoadFailsOnABadImage := fun s =>
  ⟨fun _ => load_of_length_gt s, rfl, fun _ h => ⟨_, load_of_length_le s h⟩⟩

/-- A byte after a load: the image from 0x200 on, and elsewhere what an unlisted address reads as. -/
theorem read_loadedMemory (image : List Byte) (a : Nat) :
    (loadedMemory image).read a =
      if 0x200 ≤ a ∧ a < 0x200 + image.length then image.getD (a - 0x200) 0 else Memory.unlisted a :=
  Memory.read_writeBytes List.Pairwise.nil _ image a

theorem State.reset_reg (r : Reg) : State.reset.reg r = 0 := by
  simp [State.reg, State.reset]

theorem State.reset_stack (k : Fin 12) : State.reset.stack[k] = 0 := by
  simp [State.reset]

theorem State.reset_keys (k : Key) : State.reset.keys[k] = false := by
  simp [State.reset]

/-- Settles O46: memory is read address by address, and every other element is that of reset. -/
theorem loadInitialisesTheCore : Obligations.LoadInitialisesTheCore := by
  intro image s hlen
  refine ⟨_, load_of_length_le s hlen, fun a ha => ?font, fun a ha ha' => ?low, fun j hj => ?image, fun a ha => ?high,
    rfl, rfl, rfl, State.reset_reg, rfl, State.reset_stack, rfl, rfl, Framebuffer.pixel_clear, State.reset_keys,
    rfl, rfl, rfl, rfl, rfl⟩
  case font => rw [read_loadedMemory, if_neg (by omega), Memory.unlisted_eq]
  case low => rw [read_loadedMemory, if_neg (by omega), Memory.unlisted_above_font ha]
  case image => rw [read_loadedMemory, if_pos (by omega), Nat.add_sub_cancel_left]
  case high => rw [read_loadedMemory, if_neg (by omega), Memory.unlisted_above_font (by omega)]

/-- Settles O48: nothing is listed in the memory of reset. -/
theorem resetIsTheEntryPoint : Obligations.ResetIsTheEntryPoint :=
  ⟨rfl, rfl, rfl, rfl, Memory.unlisted_eq, by decide⟩

/-! ## The host's ports -/

theorem changesOnly_writeKeys (k : Vector Bool 16) (s : State) : ChangesOnly [.keys] s (writeKeys k s) := by
  intro e he
  cases e with
  | keys => simp at he
  | v | mem => exact fun _ => rfl
  | _ => rfl

theorem changesOnly_clearDirty (s : State) : ChangesOnly [.dirty] s (clearDirty s) := by
  intro e he
  cases e with
  | dirty => simp at he
  | v | mem => exact fun _ => rfl
  | _ => rfl

/-- The flat index of a cell inside the screen gives its row and column back (10_state.md R22). -/
theorem fbOutput_eq_pixel (s : State) {x y : Nat} (h : y * 64 + x < 2048) (hx : x < 64) :
    fbOutput s ⟨y * 64 + x, h⟩ = s.fb.pixel x y := by
  have hy : y < 32 := by omega
  have hdiv : (y * 64 + x) / 64 = y := by omega
  have hmod : (y * 64 + x) % 64 = x := by omega
  simp only [fbOutput, Framebuffer.pixel, Config.fbW, Config.fbH, hdiv, hmod, hx, hy, and_self, dite_true]

/-- Settles O45: each port is one write or one read of its element. -/
theorem hostReadsAndWritesItsPorts : Obligations.HostReadsAndWritesItsPorts := fun s k =>
  ⟨⟨_, rfl, rfl, changesOnly_writeKeys k s⟩, ⟨_, rfl, rfl, changesOnly_clearDirty s⟩, decide_eq_true_iff,
    fun _ _ h hx => fbOutput_eq_pixel s h hx⟩

end Sys2Proof.Machine
end

section
namespace Sys2Proof.Machine

/-! ## The run-state -/

/-- Settles O52: a step by its outcomes, a command by the table, a load by the state it answers; the other operations keep RS. -/
theorem runStateChangesOnlyAsListed : Obligations.RunStateChangesOnlyAsListed := by
  intro e s t h hne
  cases e with
  | step =>
    obtain ⟨hrun, -⟩ := step_outcome h
    rcases rs_hr_of_step h with ⟨hrs, -⟩ | ⟨hrs, hhr⟩
    · exact absurd (hrs.trans hrun.symm) hne
    · exact .inr (.inr (.inr (.inl ⟨hrun, hrs, rfl, hhr⟩)))
  | load image =>
    obtain ⟨bytes, -, -, rfl⟩ := load_next h
    exact .inl ⟨image, rfl, rfl⟩
  | tick | keys | clearDirty => cases h; exact absurd rfl hne
  | command c =>
    cases h
    have hlive : s.rs ≠ .halted := fun hrs => hne (by rw [command_of_halted c hrs])
    cases c with
    | none => rw [command_none] at hne; exact absurd rfl hne
    | pause =>
      rw [command_pause hlive] at hne ⊢
      cases hrs : s.rs <;> simp_all
    | resume =>
      rw [command_resume hlive] at hne ⊢
      cases hrs : s.rs <;> simp_all
    | halt =>
      rw [command_halt hlive]
      exact .inr (.inr (.inr (.inr ⟨hlive, rfl, rfl, rfl⟩)))

/-- What every operation of a schedule keeps, the schedule keeps. -/
theorem schedule_keeps {P : State → Prop} (es : List Event) {s t : State}
    (hkeeps : ∀ e ∈ es, ∀ s t, P s → perform e s = .next t → P t) (hs : P s) (h : schedule es s = .next t) : P t := by
  induction es generalizing s with
  | nil => cases h; exact hs
  | cons e es ih =>
    simp only [schedule] at h
    cases he : perform e s with
    | next u =>
      rw [he] at h
      exact ih (fun e' he' => hkeeps e' (List.mem_cons_of_mem e he')) (hkeeps e List.mem_cons_self s u hs he) h
    | fault => rw [he] at h; cases h
    | refused => rw [he] at h; cases h

/-- In Halted an operation other than a load writes the timers, the keypad and DIRTY alone. -/
theorem changesOnly_perform_of_halted {e : Event} {s t : State} (hhalt : s.rs = .halted) (hload : ∀ image, e ≠ .load image)
    (h : perform e s = .next t) : ChangesOnly [.dt, .st, .keys, .dirty] s t := by
  cases e with
  | step => rw [perform, noStepUnlessRunning s (.inr hhalt)] at h; cases h
  | tick => cases h; exact (changesOnly_tick s).mono (by simp)
  | keys k => cases h; exact (changesOnly_writeKeys k s).mono (by simp)
  | clearDirty => cases h; exact (changesOnly_clearDirty s).mono (by simp)
  | command c => cases h; rw [command_of_halted c hhalt]; exact .refl _ s
  | load image => exact absurd rfl (hload image)

/-- Settles O53: by induction on the schedule; RS is among what it keeps, so every operation of it is taken in Halted. -/
theorem haltedIsTerminal : Obligations.HaltedIsTerminal := by
  intro es s t hhalt hload h
  refine schedule_keeps es (fun e he u w hu hw => ?_) (ChangesOnly.refl _ s) h
  have hrs : u.rs = .halted := Eq.trans (hu .rs (by simp)) hhalt
  exact hu.trans (changesOnly_perform_of_halted hrs (fun image hi => hload image (hi ▸ he)) hw)

end Sys2Proof.Machine
end

section
namespace Sys2Proof.Machine

/-! ## The invariant -/

/-- Settles O49: nothing is listed in memory, the stack is zero and PC is 0x200. -/
theorem resetMeetsTheInvariant : Obligations.ResetMeetsTheInvariant := by
  refine ⟨Memory.wf_nil, by decide, by decide, fun k => ?_⟩
  rw [State.reset_stack]
  decide

/-- RS and HR after an instruction: Halted comes with a reason. -/
theorem rs_hr_of_exec {i : Instr} {s t : State} (hrs : s.rs = .halted ↔ s.hr ≠ .none) (h : exec i s = .next t) :
    t.rs = .halted ↔ t.hr ≠ .none := by
  have hout := exec_outcome i s
  rw [h] at hout
  cases hout with
  | fatal reason hreason => exact iff_of_true rfl (by rintro rfl; cases hreason)
  | completes t hkept => rwa [hkept.rs, hkept.hr]

theorem toNat_add_two {pc : Word} (h : pc.toNat ≤ 0x1000) : (pc + 2).toNat = pc.toNat + 2 := by
  bv_omega

theorem toNat_sub_two_le {pc : Word} (h : 2 ≤ pc.toNat) : (pc - 2).toNat ≤ pc.toNat := by
  bv_omega

/-- After the advance PC is between 2 and 0x1000. -/
theorem pc_bounds_advance {s : State} (hpc : ¬ FetchOutOfRange s) (op : Word) :
    2 ≤ (advance op s).pc.toNat ∧ (advance op s).pc.toNat ≤ 0x1000 := by
  have hle := mt fetchOutOfRange_iff.mpr hpc
  have hadd : (advance op s).pc.toNat = s.pc.toNat + 2 := toNat_add_two (by omega)
  omega

namespace Effect

variable {i : Instr} {s t : State}

/-- The store stays in memory and keeps the canonical form; no other effect is on memory. -/
theorem mem_wf (h : Effect s i t) (hwf : s.mem.wf) : t.mem.wf := by
  cases h with
  | store _ bs hrange => exact Memory.writeBytes_wf hwf hrange
  | _ => exact hwf

/-- From an address past a word that can be fetched, PC goes at most to 0x10FE, the farthest target of JP V0, NNN
(10_state.md R17). -/
theorem pc_le (h : Effect s i t) (hlow : 2 ≤ s.pc.toNat) (hhigh : s.pc.toNat ≤ 0x1000)
    (hstack : ∀ k : Fin 12, (s.stack[k]).toNat ≤ 0x1000) : t.pc.toNat ≤ 0x10FE := by
  have hback : (s.pc - 2).toNat ≤ 0x10FE := Nat.le_trans (toNat_sub_two_le hlow) (Nat.le_trans hhigh (by decide))
  cases h with
  | fatal => exact hback
  | goto _ a ha =>
    rw [State.setPc_pc]
    rcases ha with rfl | rfl | rfl | ha
    · omega
    · exact Nat.le_trans (Nat.le_of_eq (toNat_add_two hhigh)) (by omega)
    · exact hback
    · exact ha
  | call nnn => exact Nat.le_trans (toNat_zext16_le nnn) (by decide)
  | ret k => exact Nat.le_trans (hstack k) (by decide)
  | await => exact hback
  | _ => exact Nat.le_trans hhigh (by decide)

/-- CALL, which alone writes the stack, pushes PC. -/
theorem stack_le (h : Effect s i t) (hpc : s.pc.toNat ≤ 0x1000) (hstack : ∀ k : Fin 12, (s.stack[k]).toNat ≤ 0x1000)
    (k : Fin 12) : (t.stack[k]).toNat ≤ 0x1000 := by
  cases h with
  | call nnn hsp =>
    simp only [Fin.getElem_fin, Vector.getElem_set]
    split
    · exact hpc
    · exact hstack k
  | _ => exact hstack k

end Effect

/-- The advance from an address a word can be fetched at keeps the invariant. -/
theorem stateInv_advance {s : State} (hinv : StateInv s) (hpc : ¬ FetchOutOfRange s) (op : Word) :
    StateInv (advance op s) := by
  obtain ⟨hwf, hrs, -, hstack⟩ := hinv
  exact ⟨hwf, hrs, Nat.le_trans (pc_bounds_advance hpc op).2 (by decide), hstack⟩

/-- An instruction keeps the invariant after the advance. -/
theorem stateInv_of_exec {i : Instr} {s t : State} (hinv : StateInv s) (hlow : 2 ≤ s.pc.toNat) (hhigh : s.pc.toNat ≤ 0x1000)
    (h : exec i s = .next t) : StateInv t := by
  obtain ⟨hwf, hrs, -, hstack⟩ := hinv
  have heff := effect_of_exec h
  exact ⟨heff.mem_wf hwf, rs_hr_of_exec hrs h, heff.pc_le hlow hhigh hstack, heff.stack_le hhigh hstack⟩

/-- Settles O50: by the three branches of a step, the instruction's by its effect. -/
theorem stepKeepsTheInvariant : Obligations.StepKeepsTheInvariant := by
  intro s t hinv h
  obtain ⟨-, ⟨hpc, rfl⟩ | ⟨hpc, i, -, hexec⟩ | ⟨hpc, r, -, rfl⟩⟩ := step_next_cases h
  · obtain ⟨hwf, -, hle, hstack⟩ := hinv
    exact ⟨hwf, by simp, hle, hstack⟩
  · obtain ⟨hlow, hhigh⟩ := pc_bounds_advance hpc (fetchWord s)
    exact stateInv_of_exec (stateInv_advance hinv hpc (fetchWord s)) hlow hhigh hexec
  · exact stateInv_advance hinv hpc (fetchWord s)

/-- A command to leave Halted has no effect, and Halt writes its reason. -/
theorem stateInv_command {s : State} (c : Command) (hinv : StateInv s) : StateInv (command c s) := by
  by_cases hhalt : s.rs = .halted
  · rwa [command_of_halted c hhalt]
  · obtain ⟨hwf, hrs, hpc, hstack⟩ := hinv
    have hhr : s.hr = .none := not_not.mp (mt hrs.mpr hhalt)
    cases c with
    | none => rw [command_none]; exact ⟨hwf, hrs, hpc, hstack⟩
    | pause => rw [command_pause hhalt]; exact ⟨hwf, by simp [hhr], hpc, hstack⟩
    | resume => rw [command_resume hhalt]; exact ⟨hwf, by simp [hhr], hpc, hstack⟩
    | halt => rw [command_halt hhalt]; exact ⟨hwf, by simp, hpc, hstack⟩

/-- An image of at most 3584 bytes ends at or below 0xFFF. -/
theorem loadedMemory_wf {image : List Byte} (h : image.length ≤ 3584) : (loadedMemory image).wf :=
  Memory.writeBytes_wf Memory.wf_nil (inRange_iff.mpr (.inr (by simp only [Config.progBase]; omega)))

/-- Every operation keeps the invariant. -/
theorem stateInv_perform {e : Event} {s t : State} (hinv : StateInv s) (h : perform e s = .next t) : StateInv t := by
  cases e with
  | step => exact stepKeepsTheInvariant s t hinv h
  | tick | keys | clearDirty => cases h; exact hinv
  | command c => cases h; exact stateInv_command c hinv
  | load image =>
    obtain ⟨bytes, -, hlen, rfl⟩ := load_next h
    exact ⟨loadedMemory_wf hlen, resetMeetsTheInvariant.2⟩

/-- Settles O51: each operation keeps the invariant, so a schedule from reset does. -/
theorem everyReachableStateMeetsTheInvariant : Obligations.EveryReachableStateMeetsTheInvariant :=
  ⟨fun _ _ _ => stateInv_perform, fun _ ⟨es, h⟩ =>
    schedule_keeps es (fun _ _ _ _ => stateInv_perform) resetMeetsTheInvariant h⟩

end Sys2Proof.Machine
end

section
namespace Sys2Proof.Machine

/-! ## Control transfer -/

/-- Settles O12: SYS answers the very state it is given. -/
theorem sysIsANoOp : Obligations.SysIsANoOp := fun _ s => ⟨s, rfl, .refl [] s⟩

/-- An instruction that raises Fatal does what 60_exceptions.md R118 says. -/
theorem raisesFatal_of_exec {i : Instr} {s : State} {reason : HaltReason} (h : exec i s = raiseFatal reason s) :
    RaisesFatal i s reason :=
  ⟨_, h, rfl, rfl, rfl, changesOnly_fatalEntry (s.pc - 2) reason s⟩

/-- CALL with a free entry (41_control.md R79). -/
theorem exec_call_of_lt {s : State} (nnn : BitVec 12) (h : s.sp.val < 12) :
    exec (.call nnn) s = .next { s with
      stack := s.stack.set s.sp.val s.pc h, sp := ⟨s.sp.val + 1, Nat.succ_lt_succ h⟩, pc := zext16 nnn } :=
  dif_pos h

/-- RET with k + 1 entries in use (41_control.md R80). -/
theorem exec_ret_of_succ {s : State} {k : Fin 12} (h : s.sp.val = k.val + 1) :
    exec .ret s = .next { s with sp := k.castSucc, pc := s.stack[k] } := by
  simp only [exec, execRet, h, Nat.add_one_ne_zero, dite_false, Nat.add_sub_cancel]
  rfl

/-- Settles O14: with a free entry by the push, with none by the fatal entry. -/
theorem callPushesTheReturnAddress : Obligations.CallPushesTheReturnAddress := by
  intro nnn s
  refine ⟨fun h => ⟨_, exec_call_of_lt nnn h, toNat_zext16 nnn, rfl, fun k => ?stack, fun e he => ?frame⟩,
    fun h => raisesFatal_of_exec (dif_neg (by rw [h]; decide))⟩
  case stack =>
    simp only [Fin.getElem_fin, Vector.getElem_set, eq_comm (a := s.sp.val)]
  case frame =>
    cases e with
    | pc | sp | stack => simp at he
    | v | mem => exact fun _ => rfl
    | _ => rfl

/-- Settles O15: with an entry by the pop, with none by the fatal entry. -/
theorem retPopsTheReturnAddress : Obligations.RetPopsTheReturnAddress := by
  refine fun s => ⟨fun k h => ⟨_, exec_ret_of_succ h, rfl, rfl, fun e he => ?_⟩, fun h => raisesFatal_of_exec (dif_pos h)⟩
  cases e with
  | pc | sp => simp at he
  | v | mem => exact fun _ => rfl
  | _ => rfl

/-- In Running, an instruction whose word stands at PC is the one a step runs. -/
theorem step_of_encode {s : State} {i : Instr} (hrun : s.rs = .running) (hpc : s.pc.toNat ≤ 0xFFE) (hwf : i.wf = true)
    (hword : fetchWord s = encode i) : step s = exec i (advance (fetchWord s) s) :=
  step_of_decodeWord_ok hrun (Nat.not_lt.mpr hpc) (hword ▸ decodeWith_encode _ hwf)

/-- Settles O16: the return pops the entry the call pushed, which is the PC after the call's advance. -/
theorem callThenReturnComesBack : Obligations.CallThenReturnComesBack := by
  intro s nnn hrun hpc hsp hnnn hcall hret
  obtain ⟨t, hexec, htpc, htsp, htstack, htframe⟩ := (callPushesTheReturnAddress nnn (advance (fetchWord s) s)).1 hsp
  have hst : ChangesOnly [.sp, .pc, .stack, .ci] s t :=
    ((changesOnly_advance _ s).mono (by simp)).trans (htframe.mono (by simp))
  have hword : fetchWord t = encode .ret := by
    have hmem : ∀ a, t.mem.read a = s.mem.read a := hst .mem (by simp)
    rw [fetchWord, htpc, hmem, hmem, hret]
  obtain ⟨u, huexec, hupc, husp, huframe⟩ :=
    (retPopsTheReturnAddress (advance (fetchWord t) t)).1 ⟨s.sp.val, hsp⟩ htsp
  have hrs : t.rs = .running := Eq.trans (hst .rs (by simp)) hrun
  have hsu : ChangesOnly [.sp, .pc, .stack, .ci] s u :=
    hst.trans (((changesOnly_advance _ t).mono (by simp)).trans (huframe.mono (by simp)))
  refine ⟨t, u, (step_of_encode hrun hpc rfl hcall).trans hexec, htpc,
    (step_of_encode hrs (htpc ▸ hnnn) rfl hword).trans huexec, ?pc, hsu.tail (Fin.ext husp)⟩
  case pc =>
    rw [hupc, advance_stack, htstack]
    exact if_pos rfl

/-! ## Skips -/

/-- Settles O18: the two conditions are `V[X] == V[Y]` and its negation. -/
theorem skipsOnARegister : Obligations.SkipsOnARegister := by
  intro x y s
  have hse := completes_of_skipCondition (s := s) (i := .seReg x y) rfl
  have hsne := completes_of_skipCondition (s := s) (i := .sneReg x y) rfl
  simp only [beq_iff_eq] at hse
  simp only [bne_iff_ne, ite_not] at hsne
  exact ⟨hse, hsne⟩

section
variable {s : State} {x : Reg}

theorem skipCondition_skp {k : Key} (h : keyOperand s x = some k) : skipCondition s (.skp x) = some (s.held k) :=
  congrArg (Option.map s.held) h

theorem skipCondition_sknp {k : Key} (h : keyOperand s x = some k) : skipCondition s (.sknp x) = some (!s.held k) :=
  congrArg (Option.map (!s.held ·)) h

theorem exec_skp_of_none (h : keyOperand s x = none) : exec (.skp x) s = raiseFatal .keyIndexOutOfRange s := by
  simp only [exec, execSkp, h]

theorem exec_sknp_of_none (h : keyOperand s x = none) : exec (.sknp x) s = raiseFatal .keyIndexOutOfRange s := by
  simp only [exec, execSknp, h]

end

/-- Settles O39: the key operand names a key up to 15, and then the skip is on whether it is held; above 15 it names none. -/
theorem keySkipsReadTheKeypad : Obligations.KeySkipsReadTheKeypad := by
  refine fun x s => ⟨fun k hk => ?_, fun h => ?_⟩
  · have hkey := keyOperand_eq_some.mpr hk
    have hskp := completes_of_skipCondition (skipCondition_skp hkey)
    have hsknp := completes_of_skipCondition (skipCondition_sknp hkey)
    simp only [Bool.not_eq_true', ← Bool.not_eq_true, ite_not] at hsknp
    exact ⟨hskp, hsknp⟩
  · have hkey := keyOperand_eq_none.mpr h
    exact ⟨raisesFatal_of_exec (exec_skp_of_none hkey), raisesFatal_of_exec (exec_sknp_of_none hkey)⟩

end Sys2Proof.Machine
end

section
namespace Sys2Proof.Machine

/-! ## Arithmetic and flags -/

/-- Settles O21: the sum of two bytes is taken modulo 256. -/
theorem addImmediateWrapsWithoutFlag : Obligations.AddImmediateWrapsWithoutFlag := fun x nn s =>
  (completes_of_setReg rfl).imp fun _ ⟨hval, hframe⟩ => ⟨hval ▸ BitVec.toNat_add (s.reg x) nn, hframe⟩

/-- Settles O26: of two writes to one register the last stands. -/
theorem writeOrderMattersOnlyForVF : Obligations.WriteOrderMattersOnlyForVF := by
  refine fun x o s => ⟨fun hx last r => ?_, ?_, ?_⟩
  · cases last
    · exact writeRF_false_reg x o s r
    · rw [writeRF_true_reg]
      by_cases hr : r = vF
      · rw [if_pos hr, if_neg (hr ▸ hx.symm), if_pos hr]
      · rw [if_neg hr, if_neg hr]
  · rw [writeRF_true_reg, if_pos rfl]
  · rw [writeRF_false_reg, if_pos rfl]

/-- A flag-setting instruction, with the flag last: V[X] is the result unless X is VF, VF the flag, and no other register is
written (43_alu.md R88). -/
theorem completes_of_writeRF {i : Instr} {s : State} {x : Reg} {o : Flagged} (h : exec i s = .next (writeRF true x o s)) :
    Completes i s fun t =>
      (x ≠ vF → t.reg x = o.r) ∧ t.reg vF = flagByte o.f ∧ KeepsRegs [x, vF] s t ∧ ChangesOnly [.v] s t := by
  refine ⟨_, h, fun hx => ?_, ?_, fun r hr => ?_, (changesOnly_setReg s x o.r).trans (changesOnly_setReg _ vF _)⟩
  · rw [writeRF_true_reg, if_neg hx, if_pos rfl]
  · rw [writeRF_true_reg, if_pos rfl]
  · obtain ⟨hx, hvF⟩ : r ≠ x ∧ r ≠ vF := by simpa using hr
    rw [writeRF_true_reg, if_neg hvF, if_neg hx]

theorem flagByte_decide (p : Prop) [Decidable p] : flagByte (decide p) = if p then 1 else 0 := by
  simp [flagByte]

theorem addCarry_r (a b : Byte) : (addCarry a b).r.toNat = (a.toNat + b.toNat) % 256 := BitVec.toNat_ofNat _ 8

/-- The difference, with the subtrahend added back, is the minuend. -/
theorem subNoBorrow_r (a b : Byte) : ((subNoBorrow a b).r.toNat + b.toNat) % 256 = a.toNat := by
  simp only [subNoBorrow, BitVec.toNat_ofNat]
  omega

theorem shiftRight_r (b : Byte) : (shiftRight b).r.toNat = b.toNat / 2 := by
  simp only [shiftRight, BitVec.toNat_ofNat]
  omega

theorem shiftLeft_r (b : Byte) : (shiftLeft b).r.toNat = b.toNat * 2 % 256 := BitVec.toNat_ofNat _ 8

theorem shiftRight_f (b : Byte) : (flagByte (shiftRight b).f).toNat = b.toNat % 2 := by
  revert b
  decide

theorem shiftLeft_f (b : Byte) : (flagByte (shiftLeft b).f).toNat = b.toNat / 128 := by
  revert b
  decide

/-- Settles O23: sum and carry of the old values. -/
theorem addSetsCarry : Obligations.AddSetsCarry := fun x y _ =>
  (completes_of_writeRF (i := .addReg x y) rfl).imp fun _ ⟨hval, hflag, hframe⟩ =>
    ⟨fun hx => hval hx ▸ addCarry_r _ _, hflag.trans (flagByte_decide _), hframe⟩

/-- Settles O24: SUBN is SUB with the operands swapped. -/
theorem subtractsSetNoBorrow : Obligations.SubtractsSetNoBorrow := fun x y _ =>
  ⟨(completes_of_writeRF (i := .subReg x y) rfl).imp fun _ ⟨hval, hflag, hframe⟩ =>
    ⟨fun hx => hval hx ▸ subNoBorrow_r _ _, hflag.trans (flagByte_decide _), hframe⟩,
  (completes_of_writeRF (i := .subnReg x y) rfl).imp fun _ ⟨hval, hflag, hframe⟩ =>
    ⟨fun hx => hval hx ▸ subNoBorrow_r _ _, hflag.trans (flagByte_decide _), hframe⟩⟩

/-- Settles O25: the operand of both shifts is V[X]. -/
theorem shiftsSetTheBitShiftedOut : Obligations.ShiftsSetTheBitShiftedOut := fun x y _ =>
  ⟨(completes_of_writeRF (i := .shr x y) rfl).imp fun _ ⟨hval, hflag, hframe⟩ =>
    ⟨fun hx => hval hx ▸ shiftRight_r _, hflag ▸ shiftRight_f _, hframe⟩,
  (completes_of_writeRF (i := .shl x y) rfl).imp fun _ ⟨hval, hflag, hframe⟩ =>
    ⟨fun hx => hval hx ▸ shiftLeft_r _, hflag ▸ shiftLeft_f _, hframe⟩⟩

/-- Settles O27: one write of V[X] and one count of the draws. -/
theorem randomIsADrawAndNN : Obligations.RandomIsADrawAndNN := by
  intro x nn s
  have hreg := State.setReg_reg_self s x (Config.rand s.draws &&& nn)
  refine ⟨_, rfl, hreg, fun hnn => ?_, rfl, keepsRegs_setReg s x _, fun e he => ?_⟩
  · exact hreg.trans (by rw [hnn]; exact BitVec.and_zero)
  · cases e with
    | v | draws => simp at he
    | mem => exact fun _ => rfl
    | _ => rfl

/-! ## Index register -/

theorem toNat_indexSum (s : State) (x : Reg) : (indexSum s x).toNat = (s.i.toNat + (s.reg x).toNat) % 2 ^ 16 := by
  rw [indexSum, BitVec.toNat_add, BitVec.toNat_setWidth_of_le (by decide)]

/-- The two formulas of FX29, up to 0x0F and above, are one. -/
theorem toNat_glyphAddress (v : Byte) : (glyphAddress Config.fontAddrHigh v).toNat = 5 * v.toNat := by
  revert v
  decide

/-- Settles O29: each is one write of I. -/
theorem indexAddAndFontAddress : Obligations.IndexAddAndFontAddress := fun x s =>
  ⟨(completes_of_setIndex rfl).imp fun _ ⟨hval, hframe⟩ => ⟨hval ▸ toNat_indexSum s x, hframe⟩,
    (completes_of_setIndex rfl).imp fun _ ⟨hval, hframe⟩ => ⟨hval ▸ toNat_glyphAddress (s.reg x), hframe⟩⟩

end Sys2Proof.Machine
end

section
namespace Sys2Proof.Machine

/-! ## Stores and loads -/

/-- A write of memory changes memory alone. -/
theorem changesOnly_setMem (s : State) (m : Memory) : ChangesOnly [.mem] s (s.setMem m) := by
  intro e he
  cases e with
  | mem => exact absurd List.mem_cons_self he
  | v => exact fun _ => rfl
  | _ => rfl

/-- An instruction that is one store at I: each byte reads as stored inside it and as before outside, and memory is changed
alone (44_index_memory.md R104, R105). -/
theorem completes_of_store {i : Instr} {s : State} {bs : List Byte} (hwf : s.mem.wf)
    (h : exec i s = .next (s.setMem (s.mem.writeBytes s.i.toNat bs))) :
    Completes i s fun t => (∀ k, k < bs.length → t.mem.read (s.i.toNat + k) = bs.getD k 0) ∧
      KeepsBytesOutside s.i.toNat bs.length s t ∧ ChangesOnly [.mem] s t := by
  refine ⟨_, h, fun k hk => ?_, fun k hk => ?_, changesOnly_setMem s _⟩
  · rw [State.setMem_mem, Memory.read_writeBytes hwf.1, if_pos (by omega), Nat.add_sub_cancel_left]
  · rw [State.setMem_mem, Memory.read_writeBytes hwf.1, if_neg (by omega)]

theorem exec_ldB {s : State} (x : Reg) (h : s.i.toNat ≤ 0xFFD) :
    exec (.ldB x) s = .next (s.setMem (s.mem.writeBytes s.i.toNat (decimalDigits (s.reg x)))) :=
  if_pos (inRange_iff.mpr (.inr (by omega)))

theorem inRange_regCount {s : State} {x : Reg} : InRange s.i.toNat (regCount x) ↔ s.i.toNat + x.val ≤ 0xFFF := by
  rw [inRange_iff, regCount]
  omega

theorem exec_ldMemVx {s : State} {x : Reg} (h : s.i.toNat + x.val ≤ 0xFFF) :
    exec (.ldMemVx x) s = .next (s.setMem (s.mem.writeBytes s.i.toNat (regsUpTo s x))) :=
  if_pos (inRange_regCount.mpr h)

theorem exec_ldVxMem {s : State} {x : Reg} (h : s.i.toNat + x.val ≤ 0xFFF) :
    exec (.ldVxMem x) s = .next { s with v := loadRegs s x s.i.toNat } :=
  if_pos (inRange_regCount.mpr h)

/-- The digits of a byte as numbers: none needs more than its byte. -/
theorem toNat_decimalDigits (v : Byte) :
    ((decimalDigits v).getD 0 0).toNat = v.toNat / 100 ∧ ((decimalDigits v).getD 1 0).toNat = v.toNat / 10 % 10 ∧
      ((decimalDigits v).getD 2 0).toNat = v.toNat % 10 := by
  simp only [decimalDigits, List.getD_cons_zero, List.getD_cons_succ, BitVec.toNat_ofNat]
  omega

/-- Settles O30: the bytes stored are the digits. -/
theorem bcdStoresThreeDigits : Obligations.BcdStoresThreeDigits := by
  intro x s hwf hi
  obtain ⟨hundreds, tens, ones⟩ := toNat_decimalDigits (s.reg x)
  refine (completes_of_store hwf (exec_ldB x hi)).imp fun t ⟨hread, houtside, hframe⟩ => ⟨?_, ?_, ?_, houtside, hframe⟩
  · exact hundreds ▸ congrArg BitVec.toNat (hread 0 (by simp [decimalDigits]))
  · exact tens ▸ congrArg BitVec.toNat (hread 1 (by simp [decimalDigits]))
  · exact ones ▸ congrArg BitVec.toNat (hread 2 (by simp [decimalDigits]))

/-- Settles O31: the bytes stored are V0 to VX. -/
theorem dumpStoresV0ToVx : Obligations.DumpStoresV0ToVx := by
  intro x s hwf hi
  refine (completes_of_store hwf (exec_ldMemVx hi)).imp fun t ⟨hread, houtside, hframe⟩ => ⟨fun r hr => ?_, ?_, hframe⟩
  · rw [hread r.val (by rw [length_regsUpTo]; exact Nat.lt_succ_of_le hr), regsUpTo_getD s x r hr]
  · rwa [length_regsUpTo] at houtside

/-- FX65 fills the registers up to VX and keeps those above (44_index_memory.md R106). -/
theorem completes_ldVxMem {s : State} {x : Reg} (h : s.i.toNat + x.val ≤ 0xFFF) :
    Completes (.ldVxMem x) s fun t =>
      (∀ r : Reg, t.reg r = if r ≤ x then s.mem.read (s.i.toNat + r.val) else s.reg r) ∧ ChangesOnly [.v] s t := by
  refine ⟨_, exec_ldVxMem h, loadRegs_getElem s x s.i.toNat, fun e he => ?_⟩
  cases e with
  | v => exact absurd List.mem_cons_self he
  | mem => exact fun _ => rfl
  | _ => rfl

/-- Settles O32: register by register, on either side of VX. -/
theorem loadFillsV0ToVx : Obligations.LoadFillsV0ToVx := fun _ _ hi =>
  (completes_ldVxMem hi).imp fun _ ⟨hreg, hframe⟩ =>
    ⟨fun r hr => (hreg r).trans (if_pos hr), fun r hr => (hreg r).trans (if_neg (Fin.not_le.mpr hr)), hframe⟩

/-- Settles O34: the load reads the bytes the dump stored, at the same I. -/
theorem dumpThenLoadRestores : Obligations.DumpThenLoadRestores := by
  intro x s t u hwf hi hexec humem hui
  obtain ⟨t', hexec', hdump, -, hframe⟩ := dumpStoresV0ToVx x s hwf hi
  obtain rfl : t' = t := by rw [hexec] at hexec'; cases hexec'; rfl
  have hi' : u.i = s.i := hui.trans (hframe .i (by simp))
  refine (completes_ldVxMem (s := u) (x := x) (hi' ▸ hi)).imp fun w ⟨hreg, _⟩ r => ?_
  rw [hreg r, humem, hi']
  split
  next hr => exact hdump r hr
  next => rfl

/-- Settles O35: the next fetch reads its two bytes from the memory the store left. -/
theorem storedBytesAreFetched : Obligations.StoredBytesAreFetched := by
  refine fun x s hwf => ⟨fun hi => ?ldB, fun hi => ?ldMemVx⟩
  case ldB =>
    refine (bcdStoresThreeDigits x s hwf hi).imp fun t ⟨hundreds, tens, ones, houtside, _⟩ =>
      ⟨fetchedAt_of_read hundreds, fetchedAt_of_read tens, fetchedAt_of_read ones, fun a ha => fetchedAt_of_read ?_⟩
    rw [houtside a ha]
  case ldMemVx =>
    refine (dumpStoresV0ToVx x s hwf hi).imp fun t ⟨hread, houtside, _⟩ =>
      ⟨fun r hr => fetchedAt_of_read (congrArg BitVec.toNat (hread r hr)), fun a ha => fetchedAt_of_read ?_⟩
    rw [houtside a (by omega)]

end Sys2Proof.Machine
end

section
namespace Sys2Proof.Machine

/-! ## The keypad and the timers -/

section
variable {s : State} (x : Reg)

/-! The four states of the key wait (46_keypad.md R113), one equation each. -/

theorem exec_ldVxK_idle (hak : s.ak = none) (hleast : leastHeld s = none) :
    exec (.ldVxK x) s = .next (s.setPc (s.pc - 2)) := by
  simp only [exec, execLdVxK, hak, hleast]

theorem exec_ldVxK_seen {k : Key} (hak : s.ak = none) (hleast : leastHeld s = some k) :
    exec (.ldVxK x) s = .next ((s.setAwaited (some k)).setPc (s.pc - 2)) := by
  simp only [exec, execLdVxK, hak, hleast]

theorem exec_ldVxK_held {k : Key} (hak : s.ak = some k) (hheld : s.held k = true) :
    exec (.ldVxK x) s = .next (s.setPc (s.pc - 2)) := by
  simp only [exec, execLdVxK, hak, hheld, if_true]

theorem exec_ldVxK_released {k : Key} (hak : s.ak = some k) (hheld : s.held k = false) :
    exec (.ldVxK x) s = .next ((s.setReg x (BitVec.ofNat 8 k.val)).setAwaited none) := by
  simp only [exec, execLdVxK, hak, hheld, Bool.false_eq_true, if_false]

end

/-- Settles O40: the commit is a write of V[X] and one of AK. -/
theorem keyReadCommitsOnRelease : Obligations.KeyReadCommitsOnRelease := by
  intro x k s hak hk
  refine ⟨_, exec_ldVxK_released x hak hk, ?_, rfl, keepsRegs_setReg s x _, fun e he => ?_⟩
  · have hlt : k.val < 16 := k.isLt
    rw [State.setAwaited_reg, State.setReg_reg_self, BitVec.toNat_ofNat]
    omega
  · cases e with
    | v | ak => simp at he
    | mem => exact fun _ => rfl
    | _ => rfl

/-- Settles O41: the three waits each take PC back by 2. -/
theorem keyReadWaitsWithoutProgress : Obligations.KeyReadWaitsWithoutProgress := by
  refine fun x s => ⟨fun hak hnone => ?idle, fun k hak hk hlow => ?seen, fun k hak hk => ?held⟩
  case idle => exact ⟨_, exec_ldVxK_idle x hak (leastHeld_eq_none.mpr hnone), rfl, changesOnly_setPc s _⟩
  case seen =>
    refine ⟨_, exec_ldVxK_seen x hak (leastHeld_eq_some.mpr ⟨hk, hlow⟩), rfl, rfl, fun e he => ?_⟩
    cases e with
    | pc | ak => simp at he
    | v | mem => exact fun _ => rfl
    | _ => rfl
  case held => exact ⟨_, exec_ldVxK_held x hak hk, rfl, changesOnly_setPc s _⟩

theorem changesOnly_setDt (s : State) (b : Byte) : ChangesOnly [.dt] s (s.setDt b) := by
  intro e he
  cases e with
  | dt => simp at he
  | v | mem => exact fun _ => rfl
  | _ => rfl

theorem changesOnly_setSt (s : State) (b : Byte) : ChangesOnly [.st] s (s.setSt b) := by
  intro e he
  cases e with
  | st => simp at he
  | v | mem => exact fun _ => rfl
  | _ => rfl

/-- Settles O42: each is one write, of the element it names. -/
theorem timerAccess : Obligations.TimerAccess := fun _ s =>
  ⟨completes_of_setReg rfl, ⟨_, rfl, rfl, changesOnly_setDt s _⟩, ⟨_, rfl, rfl, changesOnly_setSt s _⟩⟩

end Sys2Proof.Machine
end

section
namespace Sys2Proof.Machine

/-! ## The display -/

theorem inRange_rows {s : State} {y : Reg} {n : BitVec 4} :
    InRange s.i.toNat (spriteRows s y n) ↔ spriteRows s y n = 0 ∨ s.i.toNat + spriteRows s y n - 1 ≤ 0xFFF := by
  rw [inRange_iff]
  omega

/-- Settles O33: each range check fails on the complement of the range. -/
theorem accessAboveMemoryIsFatal : Obligations.AccessAboveMemoryIsFatal := by
  refine fun x y n s => ⟨fun h => ?_, fun h => ⟨?_, ?_⟩, fun rows hrows hpos h => ?_⟩
  · exact raisesFatal_of_exec (if_neg fun hr => by have := inRange_iff.mp hr; omega)
  · exact raisesFatal_of_exec (if_neg (mt inRange_regCount.mp (Nat.not_le.mpr h)))
  · exact raisesFatal_of_exec (if_neg (mt inRange_regCount.mp (Nat.not_le.mpr h)))
  · obtain rfl : rows = spriteRows s y n := hrows
    exact raisesFatal_of_exec (if_neg fun hr => by have := inRange_rows.mp hr; omega)

theorem exec_drw {s : State} (x : Reg) {y : Reg} {n : BitVec 4} (h : InRange s.i.toNat (spriteRows s y n)) :
    exec (.drw x y n) s =
      .next ((s.setReg vF (flagByte (drawSprite s x y n).hit)).setDisplay (drawSprite s x y n).fb) :=
  if_pos h

/-- The rows drawn end at or above the bottom edge. -/
theorem spriteY_add_rows_le (s : State) (y : Reg) (n : BitVec 4) (a : Nat) :
    spriteY s y + (s.mem.readBytes a (spriteRows s y n)).length ≤ Config.fbH := by
  have : spriteY s y < Config.fbH := Nat.mod_lt _ (by decide)
  rw [Memory.length_readBytes, spriteRows]
  omega

theorem getD_readBytes {m : Memory} {a n k : Nat} (h : k < n) : (m.readBytes a n).getD k 0 = m.read (a + k) := by
  have hk : k < (m.readBytes a n).length := by rwa [Memory.length_readBytes]
  rw [List.getD_eq_getElem _ _ hk, Memory.getElem_readBytes]

/-- The bit a row read draws on a cell is the sprite bit there. -/
theorem row_bit_eq_spriteBit (s : State) (x y : Reg) (n : BitVec 4) (cx cy : Nat) :
    (decide (spriteX s x ≤ cx ∧ cx < spriteX s x + 8 ∧ cx < Config.fbW ∧ spriteY s y ≤ cy ∧
        cy < spriteY s y + (s.mem.readBytes s.i.toNat (spriteRows s y n)).length) &&
      ((s.mem.readBytes s.i.toNat (spriteRows s y n)).getD (cy - spriteY s y) 0).getLsbD (7 - (cx - spriteX s x))) =
      spriteBit s x y n cx cy := by
  rw [spriteBit_eq, Memory.length_readBytes]
  by_cases h : spriteX s x ≤ cx ∧ cx < spriteX s x + 8 ∧ cx < 64 ∧ spriteY s y ≤ cy ∧ cy < spriteY s y + spriteRows s y n
  · rw [getD_readBytes (by omega)]
  · rw [decide_eq_false h, Bool.false_and, Bool.false_and]

/-- A draw XORs the sprite bit onto every cell. -/
theorem drawSprite_pixel (s : State) (x y : Reg) (n : BitVec 4) (cx cy : Nat) :
    (drawSprite s x y n).fb.pixel cx cy = (s.fb.pixel cx cy ^^ spriteBit s x y n cx cy) := by
  rw [drawSprite, drawRows_pixel _ (spriteY_add_rows_le s y n _), row_bit_eq_spriteBit]

/-- A draw collides where a sprite bit falls on a cell that is on. -/
theorem drawSprite_hit (s : State) (x y : Reg) (n : BitVec 4) :
    (drawSprite s x y n).hit = true ↔ ∃ cx cy, spriteBit s x y n cx cy = true ∧ s.fb.pixel cx cy = true := by
  rw [drawSprite, drawRows_hit _ (spriteY_add_rows_le s y n _)]
  simp only [Bool.false_eq_true, false_or, ← row_bit_eq_spriteBit, Bool.and_eq_true, decide_eq_true_eq, and_assoc]

/-- Settles O37: the draw as a whole, from its pixels and its collision. -/
theorem drawXorsTheClippedSprite : Obligations.DrawXorsTheClippedSprite := by
  intro x y n s hrows
  have hexec := exec_drw x (inRange_rows.mpr (hrows (spriteRows s y n) rfl))
  refine ⟨_, hexec, fun cx cy _ _ => drawSprite_pixel s x y n cx cy, fun hhit => ?hit, fun hmiss => ?miss, rfl,
    keepsRegs_setReg s vF _, ((changesOnly_setReg s vF _).mono (by simp)).trans ((changesOnly_setDisplay _ _).mono (by simp))⟩
  case hit =>
    rw [State.setDisplay_reg, State.setReg_reg_self, (drawSprite_hit s x y n).mpr hhit]
    rfl
  case miss =>
    have hno : (drawSprite s x y n).hit = false := by
      rw [← Bool.not_eq_true, drawSprite_hit]
      rintro ⟨cx, cy, hbit, hon⟩
      rw [hmiss cx cy hbit] at hon
      cases hon
    rw [State.setDisplay_reg, State.setReg_reg_self, hno]
    rfl

/-- VF after a draw is 1 exactly when it collided. -/
theorem flagByte_eq_one_iff {f : Bool} : flagByte f = 1 ↔ f = true := by
  cases f <;> decide

/-- The sprite bits depend on the two coordinate registers, I and memory. -/
theorem spriteBit_congr {s t : State} {x y : Reg} (hx : t.reg x = s.reg x) (hy : t.reg y = s.reg y) (hi : t.i = s.i)
    (hmem : t.mem = s.mem) (n : BitVec 4) : spriteBit t x y n = spriteBit s x y n := by
  funext cx cy
  simp only [spriteBit, spriteBitFrom, hx, hy, hi, hmem]

/-- Settles O38: the second draw has the sprite bits of the first, and XOR with a bit twice is the identity; it collides where a
cell is on under a sprite bit after the first draw, which is where the cell was off before. -/
theorem drawTwiceRestoresTheScreen : Obligations.DrawTwiceRestoresTheScreen := by
  intro x y n s hx hy hrows
  have hrange := inRange_rows.mpr (hrows (spriteRows s y n) rfl)
  have hexec := exec_drw x hrange
  set t := (s.setReg vF (flagByte (drawSprite s x y n).hit)).setDisplay (drawSprite s x y n).fb
  have hregx : t.reg x = s.reg x := State.setReg_reg_ne s hx
  have hregy : t.reg y = s.reg y := State.setReg_reg_ne s hy
  have hbit : spriteBit t x y n = spriteBit s x y n := spriteBit_congr hregx hregy rfl rfl n
  have hpixel : ∀ cx cy, t.fb.pixel cx cy = (s.fb.pixel cx cy ^^ spriteBit s x y n cx cy) := drawSprite_pixel s x y n
  have hrange' : InRange t.i.toNat (spriteRows t y n) := by
    rw [spriteRows, spriteY, hregy]
    exact hrange
  refine ⟨t, _, hexec, exec_drw x hrange', Framebuffer.ext_pixel fun cx cy _ _ => ?_, ?_⟩
  · rw [State.setDisplay_fb, drawSprite_pixel, hbit, hpixel, Bool.xor_assoc, Bool.xor_self, Bool.xor_false]
  · rw [State.setDisplay_reg, State.setReg_reg_self, flagByte_eq_one_iff, drawSprite_hit, hbit]
    refine exists_congr fun cx => exists_congr fun cy => ?_
    rw [hpixel]
    cases s.fb.pixel cx cy <;> simp

end Sys2Proof.Machine
end

section
namespace Sys2Proof.Machine

/-! ## What no instruction reads -/

/-- Other values for elements that no instruction reads, the stack but for CALL and RET; none leaves an element as it is. -/
structure Override where
  stack : Option (Vector Word 12) := none
  st : Option Byte := none
  dirty : Option Bool := none
  hr : Option HaltReason := none
  ci : Option Word := none
  uc : Option (BitVec 32) := none

/-- `s` with the values of `o`. -/
def State.override (s : State) (o : Override) : State :=
  { s with
    stack := o.stack.getD s.stack
    st := o.st.getD s.st
    dirty := o.dirty.getD s.dirty
    hr := o.hr.getD s.hr
    ci := o.ci.getD s.ci
    uc := o.uc.getD s.uc }

/-- The values still there after `i`: FX18 writes ST, CLS and DRW write DIRTY. -/
def Override.after (o : Override) : Instr → Override
  | .ldStVx _ => { o with st := none }
  | .cls | .drw _ _ _ => { o with dirty := none }
  | _ => o

theorem Override.after_stack (o : Override) (i : Instr) : (o.after i).stack = o.stack := by
  cases i <;> rfl

theorem Override.after_hr (o : Override) (i : Instr) : (o.after i).hr = o.hr := by
  cases i <;> rfl

/-- An override of the stack alone outlasts every instruction. -/
theorem Override.after_stack_only (stack : Vector Word 12) (i : Instr) :
    Override.after { stack := some stack } i = { stack := some stack } := by
  cases i <;> rfl

/-- Without one for the stack, an override changes the other five elements alone. -/
theorem changesOnly_override {o : Override} (s : State) (h : o.stack = none) :
    ChangesOnly [.st, .dirty, .hr, .ci, .uc] s (s.override o) := by
  intro e he
  cases e with
  | st | dirty | hr | ci | uc => simp at he
  | stack => exact congrArg (Option.getD · s.stack) h
  | v | mem => exact fun _ => rfl
  | _ => rfl

theorem changesOnly_override_stack (s : State) (stack : Vector Word 12) :
    ChangesOnly [.stack] s (s.override { stack := some stack }) := by
  intro e he
  cases e with
  | stack => simp at he
  | v | mem => exact fun _ => rfl
  | _ => rfl

theorem skipIf_override (s : State) (o : Override) (c : Bool) : skipIf c (s.override o) = (skipIf c s).override o := by
  cases c <;> rfl

/-- `i` raises the same Fatal from `s` and under the override, or completes from both with answers that differ by what is left
of the override. -/
inductive IgnoresOverride (i : Instr) (s : State) (o : Override) : Prop where
  | fatal (reason : HaltReason) (h : exec i s = raiseFatal reason s)
    (h' : exec i (s.override o) = raiseFatal reason (s.override o))
  | completes (t : State) (h : exec i s = .next t) (hrs : t.rs = s.rs)
    (h' : exec i (s.override o) = .next (t.override (o.after i)))

namespace IgnoresOverride

variable {i : Instr} {s : State} {o : Override}

/-- An instruction with one guard, on elements outside the override. -/
theorem guarded {c : Prop} [Decidable c] {reason : HaltReason} {t : State}
    (h : exec i s = if c then .next t else raiseFatal reason s) (hrs : t.rs = s.rs)
    (h' : exec i (s.override o) = if c then .next (t.override (o.after i)) else raiseFatal reason (s.override o)) :
    IgnoresOverride i s o := by
  by_cases hc : c
  · exact .completes t (h.trans (if_pos hc)) hrs (h'.trans (if_pos hc))
  · exact .fatal reason (h.trans (if_neg hc)) (h'.trans (if_neg hc))

/-- A skip reads registers and keys alone. -/
theorem skip {c : Bool} (h : skipCondition s i = some c) (h' : skipCondition (s.override o) i = some c)
    (hafter : o.after i = o) : IgnoresOverride i s o :=
  .completes _ (exec_of_skipCondition h) (Kept.skipIf c s).rs
    ((exec_of_skipCondition h').trans (by rw [skipIf_override, hafter]))

end IgnoresOverride

/-- No instruction but CALL and RET reads an element of the override. -/
theorem ignoresOverride_of_ne {i : Instr} (hcall : ∀ nnn, i ≠ .call nnn) (hret : i ≠ .ret) (s : State) (o : Override) :
    IgnoresOverride i s o := by
  cases i with
  | call nnn => exact absurd rfl (hcall nnn)
  | ret => exact absurd rfl hret
  | sys | cls | jp | ldImm | addImm | ldReg | orReg | andReg | xorReg | ldI | jpV0 | rnd | ldVxDt | ldDtVx | ldStVx | addI
  | ldF | addReg | subReg | shr | subnReg | shl => exact .completes _ rfl rfl rfl
  | seImm | sneImm | seReg | sneReg => exact .skip rfl rfl rfl
  | drw x y n => exact .guarded (c := InRange s.i.toNat (spriteRows s y n)) rfl rfl rfl
  | ldB => exact .guarded (c := InRange s.i.toNat 3) rfl rfl rfl
  | ldMemVx x | ldVxMem x => exact .guarded (c := InRange s.i.toNat (regCount x)) rfl rfl rfl
  | skp x =>
    cases hkey : keyOperand s x with
    | none => exact .fatal _ (exec_skp_of_none hkey) (exec_skp_of_none hkey)
    | some k => exact .skip (skipCondition_skp hkey) (skipCondition_skp (s := s.override o) hkey) rfl
  | sknp x =>
    cases hkey : keyOperand s x with
    | none => exact .fatal _ (exec_sknp_of_none hkey) (exec_sknp_of_none hkey)
    | some k => exact .skip (skipCondition_sknp hkey) (skipCondition_sknp (s := s.override o) hkey) rfl
  | ldVxK x =>
    cases hak : s.ak with
    | none =>
      cases hleast : leastHeld s with
      | none => exact .completes _ (exec_ldVxK_idle x hak hleast) rfl (exec_ldVxK_idle (s := s.override o) x hak hleast)
      | some k => exact .completes _ (exec_ldVxK_seen x hak hleast) rfl (exec_ldVxK_seen (s := s.override o) x hak hleast)
    | some k =>
      cases hheld : s.held k with
      | true => exact .completes _ (exec_ldVxK_held x hak hheld) rfl (exec_ldVxK_held (s := s.override o) x hak hheld)
      | false =>
        exact .completes _ (exec_ldVxK_released x hak hheld) rfl (exec_ldVxK_released (s := s.override o) x hak hheld)

/-- With the stack as it is, CALL and RET do not either. -/
theorem ignoresOverride_of_stack (i : Instr) (s : State) {o : Override} (h : o.stack = none) : IgnoresOverride i s o := by
  obtain ⟨stack, st, dirty, hr, ci, uc⟩ := o
  obtain rfl : stack = none := h
  cases i with
  | call nnn =>
    by_cases hsp : s.sp.val < 12
    · exact .completes _ (exec_call_of_lt nnn hsp) rfl (exec_call_of_lt (s := s.override _) nnn hsp)
    · exact .fatal .stackOverflow (dif_neg hsp) (dif_neg hsp)
  | ret =>
    by_cases hsp : s.sp.val = 0
    · exact .fatal .stackUnderflow (dif_pos hsp) (dif_pos hsp)
    · exact .completes _ (dif_neg hsp) rfl (dif_neg hsp)
  | _ => exact ignoresOverride_of_ne (by simp) (by simp) s _

/-- What an instruction answers under the override: Fatal also writes HR. -/
theorem IgnoresOverride.answers {i : Instr} {s t : State} {o : Override} (hign : IgnoresOverride i s o)
    (hexec : exec i s = .next t) :
    ∃ t', exec i (s.override o) = .next t' ∧
      ((t.rs = .halted ∧ t' = t.override { o with hr := none }) ∨ (t.rs = s.rs ∧ t' = t.override (o.after i))) := by
  cases hign with
  | fatal reason h h' =>
    rw [hexec] at h
    cases h
    exact ⟨_, h', .inl ⟨rfl, rfl⟩⟩
  | completes u h hrs h' =>
    rw [hexec] at h
    cases h
    exact ⟨_, h', .inr ⟨hrs, rfl⟩⟩

/-- CLS, or a draw that does not end Halted, has set DIRTY. -/
theorem dirty_of_display {i : Instr} {s t : State} (hi : i = .cls ∨ ∃ x y n, i = .drw x y n) (h : exec i s = .next t)
    (hrs : t.rs ≠ .halted) : t.dirty = true := by
  obtain rfl | ⟨x, y, n, rfl⟩ := hi
  · cases h
    rfl
  · by_cases hrange : InRange s.i.toNat (spriteRows s y n)
    · rw [exec_drw x hrange] at h
      cases h
      rfl
    · have hfatal : exec (.drw x y n) s = raiseFatal .memoryOutOfRange s := if_neg hrange
      rw [hfatal] at h
      cases h
      exact absurd rfl hrs

theorem st_of_ldStVx {s t : State} {x : Reg} (h : exec (.ldStVx x) s = .next t) : t.st = s.reg x := by
  cases h
  rfl

/-- Settles O59: an override of the five is ignored, and who writes them is known. -/
theorem diagnosticsAreReadByNoInstruction : Obligations.DiagnosticsAreReadByNoInstruction := by
  intro i s t st dirty hr ci uc hexec
  obtain ⟨t', hexec', hanswer⟩ := (ignoresOverride_of_stack i s
    (o := { st := some st, dirty := some dirty, hr := some hr, ci := some ci, uc := some uc }) rfl).answers hexec
  obtain ⟨-, hdirty, -, hst, -, -, hci, huc⟩ := displayTimerAndKeyWriters i _ t' hexec'
  refine ⟨t', hexec', ?frame, hci, huc, fun hne => ?st, fun x hi => ?sound, fun hcls hdrw => ?dirty,
    fun hrun hi => ?display, fun hrun => ?reason⟩
  case frame =>
    rcases hanswer with ⟨-, rfl⟩ | ⟨-, rfl⟩
    · exact changesOnly_override t rfl
    · exact changesOnly_override t (Override.after_stack _ i)
  case st =>
    by_contra h
    obtain ⟨x, hi⟩ := hst h
    exact hne x hi
  case sound =>
    subst hi
    exact (st_of_ldStVx hexec').trans (st_of_ldStVx hexec).symm
  case dirty =>
    by_contra h
    obtain hi | ⟨x, y, n, hi⟩ := (hdirty h).2
    · exact hcls hi
    · exact hdrw x y n hi
  case display =>
    rcases hanswer with ⟨hrs, rfl⟩ | ⟨hrs, rfl⟩
    · rw [hrs]
      rfl
    · have hrun' : t.rs = .running := hrs.trans hrun
      rw [if_pos hrun']
      exact dirty_of_display hi hexec' (ne_of_eq_of_ne hrun' (by decide))
  case reason =>
    rcases hanswer with ⟨hrs, rfl⟩ | ⟨hrs, rfl⟩
    · rw [hrs]
      rfl
    · rw [if_pos (hrs.trans hrun)]
      exact congrArg (Option.getD · t.hr) (Override.after_hr _ i)

/-- An instruction other than CALL and RET answers the same but for the stack, which it keeps. -/
theorem exec_override_stack {i : Instr} {s t : State} (hcall : ∀ nnn, i ≠ .call nnn) (hret : i ≠ .ret)
    (hexec : exec i s = .next t) (stack : Vector Word 12) :
    exec i (s.override { stack := some stack }) = .next (t.override { stack := some stack }) := by
  obtain ⟨t', hexec', ⟨-, rfl⟩ | ⟨-, rfl⟩⟩ :=
    (ignoresOverride_of_ne hcall hret s { stack := some stack }).answers hexec
  · exact hexec'
  · rwa [Override.after_stack_only] at hexec'

/-- From `s` with the entries of `stack`, `i` answers `t` but for stack entries at or above SP. -/
def IgnoresStaleEntries (i : Instr) (s t : State) (stack : Vector Word 12) : Prop :=
  ∃ t', exec i { s with stack := stack } = .next t' ∧ ChangesOnly [.stack] t t' ∧
    ∀ k : Fin 12, k.val < t.sp.val → t'.stack[k] = t.stack[k]

section
variable {s t : State} {stack : Vector Word 12} (hagree : ∀ k : Fin 12, k.val < s.sp.val → stack[k] = s.stack[k])
include hagree

/-- The entry CALL puts below the new SP is the one it writes. -/
theorem ignoresStaleEntries_call {nnn : BitVec 12} (hexec : exec (.call nnn) s = .next t) :
    IgnoresStaleEntries (.call nnn) s t stack := by
  by_cases hsp : s.sp.val < 12
  · rw [exec_call_of_lt nnn hsp] at hexec
    cases hexec
    refine ⟨_, exec_call_of_lt (s := { s with stack := stack }) nnn hsp, changesOnly_override_stack _ _, fun k hk => ?_⟩
    simp only [Fin.getElem_fin, Vector.getElem_set]
    split
    · rfl
    · exact hagree k (by simp only at hk; omega)
  · have hfatal : ∀ s' : State, s'.sp = s.sp → exec (.call nnn) s' = raiseFatal .stackOverflow s' :=
      fun s' h => dif_neg (h ▸ hsp)
    rw [hfatal s rfl] at hexec
    cases hexec
    exact ⟨_, hfatal { s with stack := stack } rfl, changesOnly_override_stack _ stack, hagree⟩

/-- The entry RET reads is below SP. -/
theorem ignoresStaleEntries_ret (hexec : exec .ret s = .next t) : IgnoresStaleEntries .ret s t stack := by
  by_cases hsp : s.sp.val = 0
  · have hfatal : ∀ s' : State, s'.sp = s.sp → exec .ret s' = raiseFatal .stackUnderflow s' := fun s' h => dif_pos (h ▸ hsp)
    rw [hfatal s rfl] at hexec
    cases hexec
    exact ⟨_, hfatal { s with stack := stack } rfl, changesOnly_override_stack _ stack, hagree⟩
  · have hlt : s.sp.val < 13 := s.sp.isLt
    obtain ⟨k, hk⟩ : ∃ k : Fin 12, s.sp.val = k.val + 1 := ⟨⟨s.sp.val - 1, by omega⟩, by simp only; omega⟩
    have hexec' := exec_ret_of_succ (s := { s with stack := stack }) hk
    rw [hagree k (by omega)] at hexec'
    rw [exec_ret_of_succ hk] at hexec
    cases hexec
    exact ⟨_, hexec', changesOnly_override_stack _ stack, fun j hj => hagree j (by simp only [Fin.val_castSucc] at hj; omega)⟩

/-- The other instructions keep SP and the stack. -/
theorem ignoresStaleEntries_of_ne {i : Instr} (hcall : ∀ nnn, i ≠ .call nnn) (hret : i ≠ .ret) (hexec : exec i s = .next t) :
    IgnoresStaleEntries i s t stack := by
  obtain ⟨hstack, hsp, -⟩ := stackAndIndexWriters i s t hexec
  have hstack : t.stack = s.stack := by_contra fun h => (hstack h).elim hcall
  have hsp : t.sp = s.sp := by_contra fun h => (hsp h).elim hret fun ⟨nnn, hi⟩ => hcall nnn hi
  refine ⟨_, exec_override_stack hcall hret hexec stack, changesOnly_override_stack t stack, fun k hk => ?_⟩
  rw [hstack]
  exact hagree k (hsp ▸ hk)

end

/-- Settles O60: by CALL, RET and the rest. -/
theorem staleStackEntriesAreUnread : Obligations.StaleStackEntriesAreUnread := by
  intro i s t stack hexec hagree
  cases i with
  | call => exact ignoresStaleEntries_call hagree hexec
  | ret => exact ignoresStaleEntries_ret hagree hexec
  | _ => exact ignoresStaleEntries_of_ne hagree (by simp) (by simp) hexec

end Sys2Proof.Machine
end
